-- ==== Sys2Proof/Word.lean ====
section
/-! DEFINITION. The word types of the machine and the byte order of an instruction word
(spec/00_scope.md R11, R14; spec/20_memory.md R52). -/

namespace Sys2Proof

/-- A general register, a timer, a byte of memory: 8 bits (R24, R30, R32). -/
abbrev Byte := BitVec 8

/-- `I`, `PC`, a stack entry, an instruction word: 16 bits (R27, R28, R31, R80). -/
abbrev Word := BitVec 16

/-- A register number 0 to 15, naming `V[x]` (R82, R83). -/
abbrev RegIx := Fin 16

/-- A 12-bit address operand (R86). -/
abbrev Addr12 := BitVec 12

end Sys2Proof
end

