-- ==== Sys2Proof/Config.lean ====
section
/-! DEFINITION. The fixed parameters of spec/00_scope.md R8 that a definition reads by name, the one free value of the
machine, the byte `RAND` (R10, R186), and the types of the open parameters `KEYSEL` and `KEYIDX_POLICY` (R10). -/

namespace Sys2Proof.Config

/-- `MEM_SIZE`: bytes of memory, addresses 0 to 4095 (R8). -/
@[simp] abbrev memSize : Nat := 4096

/-- `PROG_BASE`: where `loadProgram` puts its bytes and what it sets `PC` to (R8, R59). -/
@[simp] abbrev progBase : Nat := 0x200

/-- The largest image `loadProgram` takes, `4096 - 0x200` bytes (R59, R198). -/
@[simp] abbrev maxImage : Nat := 3584

/-- `FONT_BASE` (R8). -/
@[simp] abbrev fontBase : Nat := 0

/-- `GLYPH_BYTES`: bytes of one font glyph (R8). -/
@[simp] abbrev glyphBytes : Nat := 5

/-- `RAND`: the byte drawn by the `k`-th execution of RND, "a fresh byte each execution", taken "as a free
draw under no law" (R10, R186, D31). It has no body: nothing can be proved of its value. Log entry 1. -/
opaque randByte : Nat → Byte

/-- The type of `KEYSEL` (R10): from the key states, "which held key the wait-for-key instruction reports", `none` where it
reports none. Its default is `lowestHeld` (Machine/Operands.lean). -/
abbrev KeySel : Type := Vector Bool 16 → Option (Fin 16)

/-- What a key-skip instruction may take a key number above 15 for: the candidates of decision D26, or none of them. -/
inductive KeyAnswer where
  /-- some key's state: of the number masked to 4 bits, say, or "not held" -/
  | held (pressed : Bool)
  /-- a bounds error -/
  | boundsError
  /-- the model refuses the step -/
  | refused
deriving DecidableEq, Repr

/-- The type of `KEYIDX_POLICY` (R10): what a key-skip instruction does for a key number above 15, with the key states as
they are. -/
abbrev KeyPolicy : Type := Byte → Vector Bool 16 → KeyAnswer

/-- The default of `KEYIDX_POLICY`: "none: the model refuses that step" (R10, R187). Log entry 3. -/
def refuseKeys : KeyPolicy := fun _ _ => .refused

end Sys2Proof.Config
end

