-- ==== Sys2Proof/Syntax.lean ====
section
/-! DEFINITION. The instructions (one constructor for each of the 34 rows of spec/opcode_table.json) and the
calls of the host environment (spec/48_host_context.md section 7). -/

namespace Sys2Proof

/-- One constructor per row of the opcode table (R91 to R94). Every operand has exactly the width of its field, so
every value of every field is an instruction: "there is no reserved value of any field" (R91). Bits that are neither
key nor operand are ignored (R89) and are not kept. -/
inductive Instr where
  /-- `DRW Vx, Vy, n` (R91, R112) -/
  | drw (x y : RegIx) (n : Fin 16)
  /-- `CLS` (R92, R125) -/
  | cls
  /-- `LD B, Vx` (R93, R141) -/
  | bcd (x : RegIx)
  /-- `RET` (R163) -/
  | ret
  /-- `JP nnn` (R164) -/
  | jp (nnn : Addr12)
  /-- `CALL nnn` (R165) -/
  | call (nnn : Addr12)
  /-- `SE Vx, kk` (R166) -/
  | seImm (x : RegIx) (kk : Byte)
  /-- `SNE Vx, kk` (R167) -/
  | sneImm (x : RegIx) (kk : Byte)
  /-- `SE Vx, Vy` (R168) -/
  | seReg (x y : RegIx)
  /-- `LD Vx, kk` (R170) -/
  | ldImm (x : RegIx) (kk : Byte)
  /-- `ADD Vx, kk` (R171) -/
  | addImm (x : RegIx) (kk : Byte)
  /-- `LD Vx, Vy` (R172) -/
  | ldReg (x y : RegIx)
  /-- `OR Vx, Vy` (R173) -/
  | orReg (x y : RegIx)
  /-- `AND Vx, Vy` (R174) -/
  | andReg (x y : RegIx)
  /-- `XOR Vx, Vy` (R175) -/
  | xorReg (x y : RegIx)
  /-- `ADD Vx, Vy` (R176) -/
  | addReg (x y : RegIx)
  /-- `SUB Vx, Vy` (R177) -/
  | subReg (x y : RegIx)
  /-- `SHR Vx`; the table's field `y` is decoded and not used by the semantics (R178) -/
  | shr (x y : RegIx)
  /-- `SUBN Vx, Vy` (R179) -/
  | subnReg (x y : RegIx)
  /-- `SHL Vx`; the table's field `y` is decoded and not used by the semantics (R180) -/
  | shl (x y : RegIx)
  /-- `SNE Vx, Vy` (R169) -/
  | sneReg (x y : RegIx)
  /-- `LD I, nnn` (R183) -/
  | ldI (nnn : Addr12)
  /-- `JP V0, nnn` (R184) -/
  | jpV0 (nnn : Addr12)
  /-- `RND Vx, kk` (R186) -/
  | rnd (x : RegIx) (kk : Byte)
  /-- `SKP Vx` (R187) -/
  | skp (x : RegIx)
  /-- `SKNP Vx` (R188) -/
  | sknp (x : RegIx)
  /-- `LD Vx, DT` (R189) -/
  | ldVxDt (x : RegIx)
  /-- `LD Vx, K` (R192) -/
  | ldVxK (x : RegIx)
  /-- `LD DT, Vx` (R190) -/
  | ldDtVx (x : RegIx)
  /-- `LD ST, Vx` (R191) -/
  | ldStVx (x : RegIx)
  /-- `ADD I, Vx` (R193) -/
  | addI (x : RegIx)
  /-- `LD F, Vx` (R194) -/
  | ldF (x : RegIx)
  /-- `LD [I], Vx`, block store (R195) -/
  | ldMemVx (x : RegIx)
  /-- `LD Vx, [I]`, block load (R196) -/
  | ldVxMem (x : RegIx)
deriving DecidableEq, Repr

/-- The four calls of the host environment that can change the state, between steps only (R39, R198 to R201). Its reads (`getDisplay`, `getSoundLevel`, the fault port) change
nothing and are plain functions in Machine/HostCalls.lean. -/
inductive HostCall where
  /-- `loadProgram(bytes)` (R198) -/
  | loadProgram (bytes : List Byte)
  /-- `tickTimers()` (R199) -/
  | tickTimers
  /-- `setKey(index, pressed)` (R200) -/
  | setKey (index : Nat) (pressed : Bool)
  /-- `reset()` (R201) -/
  | reset
deriving DecidableEq, Repr

end Sys2Proof
end

