-- ==== Sys2Proof/Machine/State.lean ====
section
/-! DEFINITION. The state of the machine (spec/10_state.md), the reasons a step stops, and the state after reset.
Every field but `draws` is a piece of state the spec names; R36 and R43 list them all. -/

namespace Sys2Proof.Machine

/-- The display buffer `FB`: 32 rows of 64 one-bit cells, "row-major, linear index = x + y·64" (R20). Bit `px` of row
word `py` is the cell at column `px`, row `py`, that is `FB[px + 64*py]` (R21). -/
abbrev Display := Vector (BitVec 64) 32

/-- `MEM`: the bytes that are not 0, by strictly rising address; an address that is not listed reads as 0, the byte
reset leaves everywhere (R30, R43, R44). -/
abbrev Memory := List Host.Cell

/-- `FLT.kind` (R35, R220). -/
inductive FaultKind where
  /-- code 0 -/
  | none
  /-- code 1, `BoundsError` -/
  | bounds
  /-- code 2 -/
  | stackOverflow
  /-- code 3 -/
  | stackUnderflow
deriving DecidableEq, Repr

/-- The fault register `FLT = {kind[1:0], addr[15:0]}` (R34, R35). -/
structure FaultReg where
  kind : FaultKind
  addr : Word
deriving DecidableEq, Repr

/-- The faults an instruction or a fetch can raise (R15, R220): `BoundsError(a)` with the lowest out-of-range address,
and the two stack faults. Taken by `State.raise` (Machine/Ops.lean). -/
inductive Trap where
  | bounds (addr : Nat)
  | stackOverflow
  | stackUnderflow
deriving DecidableEq, Repr

/-- All the state of the machine (R36, R43). -/
structure State where
  /-- display buffer, 64 by 32 cells (R20) -/
  fb : Display
  /-- general registers `V[0]` to `V[15]`; `V[15]` is VF (R24, R25) -/
  v : Vector Byte 16
  /-- index register `I` (R27) -/
  i : Word
  /-- program counter (R28) -/
  pc : Word
  /-- memory (R30) -/
  mem : Memory
  /-- the 16 return addresses (R31) -/
  stack : Vector Word 16
  /-- the next free stack slot, 0 to 16 (R31) -/
  sp : Fin 17
  /-- delay timer (R32) -/
  dt : Byte
  /-- sound timer (R32) -/
  st : Byte
  /-- the 16 key states (R33) -/
  key : Vector Bool 16
  /-- fault register (R34, R35) -/
  flt : FaultReg
  /-- THE MODEL'S OWN, not the spec's: how many RND have drawn a byte; the next one draws `Config.randByte draws`
  (R186). Log entry 1. -/
  draws : Nat
deriving DecidableEq, Repr

/-- Why the machine stops. -/
inductive Fault where
  /-- Raised by `step` alone, when a fault is already latched in `FLT`: "While `FLT.kind != 0` every `step()` is
  refused: it fetches nothing, executes nothing, changes nothing" (R227). The instruction that raised the fault has
  taken it in a next state before. Safe: the spec's machine goes no further either. Log entry 2. -/
  | latched (kind : FaultKind) (addr : Word)
deriving DecidableEq, Repr

/-- Why the model gives no next state. -/
inductive Refusal where
  /-- Raised by an arm of `exec` alone, for an instruction that has no meaning yet (there is none). Safe. -/
  | notModelled (mnemonic : String)
  /-- Raised by SKP and SKNP when `V[x] > 15`, where `KEYIDX_POLICY` refuses, as its default does (R10): "the document names no key and gives no rule: OPEN, parameter
  `KEYIDX_POLICY`, a model refuses" (R187). Safe: no behaviour is claimed there. Log entry 3. -/
  | keyIndexOpen (number : Byte)
deriving DecidableEq, Repr

/-- The machine right after reset: "every field takes the value ... which is zero for every field" (R41, R43, R260).
`draws` is the model's own; its 0 is a DESIGN CHOICE that nothing rests on (log entry 1). -/
def State.reset : State where
  fb := Vector.replicate 32 0
  v := Vector.replicate 16 0
  i := 0
  pc := 0
  mem := []
  stack := Vector.replicate 16 0
  sp := 0
  dt := 0
  st := 0
  key := Vector.replicate 16 false
  flt := ⟨.none, 0⟩
  draws := 0

end Sys2Proof.Machine
end

