-- ==== Sys2Proof/Machine/Ops.lean ====
section
/-! DEFINITION. The named operations over registers, memory, display and stack, taking a fault, and how an
instruction ends. -/

namespace Sys2Proof.Machine

/-! ### Registers (R12, R24) -/

/-- `VF`, that is `V[15]` (R25). -/
def vf : RegIx := 15

/-- `V[x]`. -/
def State.reg (s : State) (x : RegIx) : Byte := s.v[x.val]

/-- `V[x] <- b`. No register is hardwired (R24). -/
def State.setReg (s : State) (x : RegIx) (b : Byte) : State := { s with v := s.v.set x.val b }

/-! ### How an instruction ends (R28, R160) -/

/-- `PC <- (PC + 2) mod 65536`. -/
def State.advance (s : State) : State := { s with pc := s.pc + 2 }

/-- "if the condition holds, advance PC by 4 instead of 2 ..., else by 2" (R166). -/
def State.skipIf (s : State) (c : Bool) : State := { s with pc := if c then s.pc + 4 else s.pc + 2 }

/-! ### Memory: 4096 bytes, one byte an access (R30, R50 to R58) -/

/-- What an address that is not listed holds: 0, the byte reset leaves everywhere, "including the reserved region"
(R44, R45). -/
abbrev unlisted : Byte := 0

/-- The byte at an address (R58). -/
def Memory.read : Memory → Nat → Byte
  | [], _ => unlisted
  | (k, b) :: rest, a => if k = a then b else Memory.read rest a

/-- Stores a byte at an address and changes nothing else (R58). The byte an unlisted address holds
is stored by dropping the entry. -/
def Memory.write : Memory → Nat → Byte → Memory
  | [], a, b => if b = unlisted then [] else [(a, b)]
  | (k, c) :: rest, a, b =>
    if a < k then if b = unlisted then (k, c) :: rest else (a, b) :: (k, c) :: rest
    else if a = k then if b = unlisted then rest else (a, b) :: rest
    else (k, c) :: Memory.write rest a b

/-- Entries from address `lo` on, strictly rising, below 4096, none of them what an unlisted address holds. -/
def Memory.wfFrom (lo : Nat) : Memory → Bool
  | [] => true
  | (k, b) :: rest => lo ≤ k && k < 4096 && b != unlisted && Memory.wfFrom (k + 1) rest

/-- The canonical form of memory: equal memories are equal lists, and no byte lies outside `MEM[0..4095]`. -/
def Memory.wf (m : Memory) : Bool := Memory.wfFrom 0 m

/-- `count` bytes from `base` on, by rising address. -/
def Memory.readBytes (m : Memory) (base : Nat) : Nat → List Byte
  | 0 => []
  | count + 1 => m.read base :: Memory.readBytes m (base + 1) count

/-- Stores bytes from `base` on, by rising address. -/
def Memory.writeBytes (m : Memory) (base : Nat) : List Byte → Memory
  | [] => m
  | b :: bytes => Memory.writeBytes (m.write base b) (base + 1) bytes

/-- The bounds rule for the address set `base .. base + count - 1`, in natural numbers: no address of it is above 4095;
an empty set always fits (R56, R57). -/
def fits (base count : Nat) : Bool := count == 0 || base + (count - 1) ≤ 4095

/-- The lowest out-of-range address of an access set that does not fit: `max(base, 4096)` (R221). -/
def firstOutside (base : Nat) : Nat := max base 4096

/-! ### Display (R20 to R23) -/

/-- The cell at column `px`, row `py` (R21). -/
def Display.cell (fb : Display) (px : Fin 64) (py : Fin 32) : Bool := fb[py.val].getLsbD px.val

/-- `FB[k] <- FB[k] xor 1` for the cell at column `px`, row `py` (R112). -/
def Display.toggle (fb : Display) (px : Fin 64) (py : Fin 32) : Display :=
  fb.set py.val (fb[py.val] ^^^ BitVec.twoPow 64 px.val)

/-- `FB[k]`: "cell `k` is at column `k mod 64`, row `k / 64`" (R21). -/
def Display.at (fb : Display) (k : Fin 2048) : Bool :=
  Display.cell fb (Fin.ofNat 64 k.val) ⟨k.val / 64, by omega⟩

/-- Every cell off (R42, R125). -/
def Display.clear : Display := Vector.replicate 32 0

/-! ### Call stack (R31, R163, R165) -/

/-- Pushes a return address: `none` when all 16 slots are in use (R222). -/
def State.push (s : State) (a : Word) : Option State :=
  if h : s.sp.val < 16 then
    some { s with stack := s.stack.set s.sp.val a, sp := ⟨s.sp.val + 1, by omega⟩ }
  else none

/-- Pops a return address: `none` when the stack is empty (R223). "The popped slot keeps its value" (R163). -/
def State.pop (s : State) : Option (Word × State) :=
  if h : 0 < s.sp.val then
    some (s.stack[s.sp.val - 1], { s with sp := ⟨s.sp.val - 1, by omega⟩ })
  else none

/-! ### Taking a fault (R220, R226) -/

/-- What `FLT` records: for Bounds the lowest out-of-range address, for the stack faults the `PC` of the instruction
(R35, R220). -/
def Trap.record (t : Trap) (pc : Word) : FaultReg :=
  match t with
  | .bounds a => ⟨.bounds, BitVec.ofNat 16 a⟩
  | .stackOverflow => ⟨.stackOverflow, pc⟩
  | .stackUnderflow => ⟨.stackUnderflow, pc⟩

/-- Taking a fault: `FLT` is set "when a fault is raised while `kind = 0`" (R35) "and **nothing else changes**: not `PC`
(it stays at the faulting instruction), not `SP`, not any register, memory byte or cell, not VF" (R226). There is no
handler, no saved `PC` and no return from a fault (R228, R229): `reset()` is the only exit (R227). -/
def State.raise (s : State) (t : Trap) : State :=
  if s.flt.kind = .none then { s with flt := t.record s.pc } else s

/-- How an instruction of the machine answers. -/
abbrev Answer := Host.Outcome State Fault Refusal

/-- What a block command answers on `rsp`: done, with the state it leaves, or fault (R40). The block has no port onto
`PC` (R29). -/
inductive BlockResult where
  | done (s : State)
  | fault (t : Trap)
deriving DecidableEq, Repr

/-- The host core's part of a block command: "if the block raised: return Fault -- PC unchanged; PC <- (PC + 2) mod
65536" (R29, R160). -/
def completeCommand (s : State) : BlockResult → Answer
  | .done s' => .next s'.advance
  | .fault t => .next (s.raise t)

end Sys2Proof.Machine
end

