-- ==== Sys2Proof/Machine/Flags.lean ====
section
/-! DEFINITION. Every flag computation of the machine. VF is the only flag (R25), written as `0x01` or `0x00`. -/

namespace Sys2Proof.Machine

/-- `0x01` for true, `0x00` for false (R25). -/
def flagByte (c : Bool) : Byte := if c then 1 else 0

/-- ADD: "VF=1 iff the 9-bit sum exceeds 255" (R176). -/
def carryOut (a b : Byte) : Bool := a.toNat + b.toNat > 255

/-- SUB `a - b`, SUBN with the operands exchanged: "1 = no borrow", the minuend "greater than or equal to" the
subtrahend (R177, R179). -/
def noBorrow (a b : Byte) : Bool := a.toNat ≥ b.toNat

/-- SHR: the bit shifted out, `a[0]` (R178). -/
def shrOut (a : Byte) : Bool := a.getLsbD 0

/-- SHL: the bit shifted out, `a[7]` (R180). -/
def shlOut (a : Byte) : Bool := a.getLsbD 7

/-- The five flag-writing ALU operations write the result first and the flag after it, so that with `x = 15` VF ends
holding the flag (R181). -/
def State.setResultFlag (s : State) (x : RegIx) (result : Byte) (flag : Bool) : State :=
  (s.setReg x result).setReg vf (flagByte flag)

end Sys2Proof.Machine
end

