-- ==== Sys2Proof/Machine/Operands.lean ====
section
/-! DEFINITION. The operand forms: zero-extended registers and addresses, the draw origin, key numbers. -/

namespace Sys2Proof.Machine

/-- `zext_16(nnn)` (R86): a jump or call target, a value for `I`. -/
def target (nnn : Addr12) : Word := nnn.setWidth 16

/-- `zext_16(V[x])` (R184, R193, R194). -/
def State.regWord (s : State) (x : RegIx) : Word := (s.reg x).setWidth 16

/-- `x0 = V[x] mod 64` (R112). -/
def State.originColumn (s : State) (x : RegIx) : Nat := (s.reg x).toNat % 64

/-- `y0 = V[y] mod 32` (R112). -/
def State.originRow (s : State) (y : RegIx) : Nat := (s.reg y).toNat % 32

/-- The column of sprite bit `c`: `(x0 + c) mod 64` (R112, R114). -/
def columnOf (x0 c : Nat) : Fin 64 := Fin.ofNat 64 (x0 + c)

/-- The display row of sprite row `r`: `(y0 + r) mod 32` (R112, R114). -/
def rowOf (y0 r : Nat) : Fin 32 := Fin.ofNat 32 (y0 + r)

/-- `KEY[b]` for `b` 0 to 15; above 15 no key is named, and `KEYIDX_POLICY` answers (R187, R10). -/
def State.keyState (policy : Config.KeyPolicy) (s : State) (b : Byte) : Config.KeyAnswer :=
  if h : b.toNat < 16 then .held s.key[b.toNat] else policy b s.key

/-- Which held key wait-for-key reports, "the lowest such index" (R192): the default of the parameter `KEYSEL` (R10,
D27). Log entry 4. -/
def lowestHeld : Config.KeySel := fun key =>
  (List.finRange 16).find? fun j => key[j.val]

end Sys2Proof.Machine
end

