-- ==== Sys2Proof/Machine/Alu.lean ====
section
/-! DEFINITION. Immediates, the register-register ALU and the random instruction (spec/48_host_context.md sections 3
and 4). -/

namespace Sys2Proof.Machine

/-- `LD Vx, kk` (R170). -/
def execLdImm (x : RegIx) (kk : Byte) (s : State) : Answer := .next (s.setReg x kk).advance

/-- `ADD Vx, kk` (R171): modulo 256, "no flag side effects". -/
def execAddImm (x : RegIx) (kk : Byte) (s : State) : Answer := .next (s.setReg x (s.reg x + kk)).advance

/-- `LD Vx, Vy` (R172); VF not written (R182). -/
def execLdReg (x y : RegIx) (s : State) : Answer := .next (s.setReg x (s.reg y)).advance

/-- `OR Vx, Vy` (R173); VF not written (R182). -/
def execOrReg (x y : RegIx) (s : State) : Answer := .next (s.setReg x (s.reg x ||| s.reg y)).advance

/-- `AND Vx, Vy` (R174); VF not written (R182). -/
def execAndReg (x y : RegIx) (s : State) : Answer := .next (s.setReg x (s.reg x &&& s.reg y)).advance

/-- `XOR Vx, Vy` (R175); VF not written (R182). -/
def execXorReg (x y : RegIx) (s : State) : Answer := .next (s.setReg x (s.reg x ^^^ s.reg y)).advance

/-- `ADD Vx, Vy` (R176). -/
def execAddReg (x y : RegIx) (s : State) : Answer :=
  .next (s.setResultFlag x (s.reg x + s.reg y) (carryOut (s.reg x) (s.reg y))).advance

/-- `SUB Vx, Vy` (R177). -/
def execSubReg (x y : RegIx) (s : State) : Answer :=
  .next (s.setResultFlag x (s.reg x - s.reg y) (noBorrow (s.reg x) (s.reg y))).advance

/-- `SHR Vx` (R178): logical, the source is VX, `y` is ignored. -/
def execShr (x _y : RegIx) (s : State) : Answer :=
  .next (s.setResultFlag x (s.reg x >>> 1) (shrOut (s.reg x))).advance

/-- `SUBN Vx, Vy` (R179). -/
def execSubnReg (x y : RegIx) (s : State) : Answer :=
  .next (s.setResultFlag x (s.reg y - s.reg x) (noBorrow (s.reg y) (s.reg x))).advance

/-- `SHL Vx` (R180): the source is VX, `y` is ignored. -/
def execShl (x _y : RegIx) (s : State) : Answer :=
  .next (s.setResultFlag x (s.reg x <<< 1) (shlOut (s.reg x))).advance

/-- `RND Vx, kk` (R186): `V[x] <- RAND and kk`, a fresh byte each execution. -/
def execRnd (x : RegIx) (kk : Byte) (s : State) : Answer :=
  .next ({ s with draws := s.draws + 1 }.setReg x (Config.randByte s.draws &&& kk)).advance

end Sys2Proof.Machine
end

