-- ==== Sys2Proof/Machine/Bcd.lean ====
section
/-! DEFINITION. The BCD converter (spec/41_bcd.md). -/

namespace Sys2Proof.Machine

/-- Hundreds, `v / 100` (R141). -/
def hundreds (v : Byte) : Byte := v / 100

/-- Tens, `(v / 10) mod 10` (R141). -/
def tens (v : Byte) : Byte := v / 10 % 10

/-- Ones, `v mod 10` (R141). -/
def ones (v : Byte) : Byte := v % 10

/-- The packed result bus `BCD12(v) = {h[3:0], t[3:0], o[3:0]}`, a temporary of the command (R143). -/
def bcd12 (v : Byte) : BitVec 12 :=
  (hundreds v).setWidth 4 ++ (tens v).setWidth 4 ++ (ones v).setWidth 4

/-- What the store unit unpacks from the bus: the three bytes for `I`, `I+1`, `I+2`, hundreds first, each nibble
zero-extended (R143, R53). -/
def unpack (bus : BitVec 12) : List Byte :=
  [(bus.extractLsb' 8 4).setWidth 8, (bus.extractLsb' 4 4).setWidth 8, (bus.extractLsb' 0 4).setWidth 8]

/-- The block's command BCD: the bounds check covers all three addresses before the first write (R141, R144). -/
def bcdCommand (x : RegIx) (s : State) : BlockResult :=
  let base := s.i.toNat
  if fits base 3 then .done { s with mem := s.mem.writeBytes base (unpack (bcd12 (s.reg x))) }
  else .fault (.bounds (firstOutside base))

/-- `LD B, Vx` (R141). -/
def execBcd (x : RegIx) (s : State) : Answer := completeCommand s (bcdCommand x s)

/-! ### The shift-and-add-3 circuit of R148, one implementation of the converter -/

/-- "first add 3 to every nibble of the accumulator that is 5 or more" (R148). -/
def addThree (nib : BitVec 4) : BitVec 4 := if nib.toNat ≥ 5 then nib + 3 else nib

/-- One round: correct the three nibbles, shift left by one, bring in a bit at bit 0 (R148). -/
def dabbleRound (acc : BitVec 12) (b : Bool) : BitVec 12 :=
  let fixed := addThree (acc.extractLsb' 8 4) ++ addThree (acc.extractLsb' 4 4) ++ addThree (acc.extractLsb' 0 4)
  (fixed <<< 1) ||| (BitVec.ofBool b).setWidth 12

/-- Eight rounds, from bit 7 of `v` down to bit 0 (R148). -/
def doubleDabble (v : Byte) : BitVec 12 :=
  [7, 6, 5, 4, 3, 2, 1, 0].foldl (fun acc j => dabbleRound acc (v.getLsbD j)) 0

end Sys2Proof.Machine
end

