-- ==== Sys2Proof/Machine/Control.lean ====
section
/-! DEFINITION. Control transfer (spec/48_host_context.md section 2). -/

namespace Sys2Proof.Machine

/-- `RET` (R163); `StackUnderflow` when the stack is empty (R223). -/
def execRet (s : State) : Answer :=
  match s.pop with
  | some (a, s') => .next { s' with pc := a }
  | none => .next (s.raise .stackUnderflow)

/-- `JP nnn` (R164). -/
def execJp (nnn : Addr12) (s : State) : Answer := .next { s with pc := target nnn }

/-- `CALL nnn` (R165): pushes the address of the instruction after the call; `StackOverflow` when the stack is full
(R222). -/
def execCall (nnn : Addr12) (s : State) : Answer :=
  match s.push (s.pc + 2) with
  | some s' => .next { s' with pc := target nnn }
  | none => .next (s.raise .stackOverflow)

/-- `SE Vx, kk` (R166). -/
def execSeImm (x : RegIx) (kk : Byte) (s : State) : Answer := .next (s.skipIf (s.reg x == kk))

/-- `SNE Vx, kk` (R167). -/
def execSneImm (x : RegIx) (kk : Byte) (s : State) : Answer := .next (s.skipIf (s.reg x != kk))

/-- `SE Vx, Vy` (R168). -/
def execSeReg (x y : RegIx) (s : State) : Answer := .next (s.skipIf (s.reg x == s.reg y))

/-- `SNE Vx, Vy` (R169). -/
def execSneReg (x y : RegIx) (s : State) : Answer := .next (s.skipIf (s.reg x != s.reg y))

/-- `JP V0, nnn` (R184): the register is always V0; the sum is not reduced modulo 4096. -/
def execJpV0 (nnn : Addr12) (s : State) : Answer := .next { s with pc := s.regWord 0 + target nnn }

end Sys2Proof.Machine
end

