-- ==== Sys2Proof/Machine/Display.lean ====
section
/-! DEFINITION. The display family, DRW and CLS (spec/40_sprite_draw.md). -/

namespace Sys2Proof.Machine

/-- What DRW carries from cell to cell: the buffer and the one-bit collision value `coll` (R37, R112). -/
structure Blit where
  fb : Display
  coll : Bool
deriving DecidableEq, Repr

/-- One sprite bit: a 1 toggles its cell and collides when the cell was on; a 0 touches nothing (R112, R115, R116).
Column offset `c` takes bit `7 - c` of the row byte (R113). -/
def drawBit (x0 y0 r : Nat) (row : Byte) (acc : Blit) (c : Nat) : Blit :=
  if row.getLsbD (7 - c) then
    { fb := Display.toggle acc.fb (columnOf x0 c) (rowOf y0 r)
      coll := acc.coll || Display.cell acc.fb (columnOf x0 c) (rowOf y0 r) }
  else acc

/-- One sprite row: columns 0 to 7, most significant bit first (R112). -/
def drawRow (x0 y0 r : Nat) (row : Byte) (acc : Blit) : Blit :=
  [0, 1, 2, 3, 4, 5, 6, 7].foldl (drawBit x0 y0 r row) acc

/-- The sprite rows from row number `r` on, by ascending address (R112). -/
def drawRows (x0 y0 : Nat) : Nat → List Byte → Blit → Blit
  | _, [], acc => acc
  | r, row :: rows, acc => drawRows x0 y0 (r + 1) rows (drawRow x0 y0 r row acc)

/-- The block's command DRW: operands sampled once, the bounds check before the first write, VF written last
(R112, R117, R118, R119). -/
def drwCommand (x y : RegIx) (n : Fin 16) (s : State) : BlockResult :=
  let base := s.i.toNat
  if fits base n.val then
    let out := drawRows (s.originColumn x) (s.originRow y) 0 (s.mem.readBytes base n.val) ⟨s.fb, false⟩
    .done ({ s with fb := out.fb }.setReg vf (flagByte out.coll))
  else .fault (.bounds (firstOutside base))

/-- The block's command CLS: "Set every display cell to off" (R125). -/
def clsCommand (s : State) : BlockResult := .done { s with fb := Display.clear }

/-- `DRW Vx, Vy, n` (R112). -/
def execDrw (x y : RegIx) (n : Fin 16) (s : State) : Answer := completeCommand s (drwCommand x y n s)

/-- `CLS` (R125). -/
def execCls (s : State) : Answer := completeCommand s (clsCommand s)

end Sys2Proof.Machine
end

