-- ==== Sys2Proof/Machine/Index.lean ====
section
/-! DEFINITION. The index register, and block store and load (spec/48_host_context.md sections 4 and 5). -/

namespace Sys2Proof.Machine

/-- `LD I, nnn` (R183). -/
def execLdI (nnn : Addr12) (s : State) : Answer := .next { s with i := target nnn }.advance

/-- `ADD I, Vx` (R193): modulo 65536, VF not written. -/
def execAddI (x : RegIx) (s : State) : Answer := .next { s with i := s.i + s.regWord x }.advance

/-- The address of glyph `b`: `FONT_BASE + 5 * b`, `b` not masked to a nibble (R194). -/
def glyphAddress (b : Word) : Word :=
  BitVec.ofNat 16 Config.fontBase + BitVec.ofNat 16 Config.glyphBytes * b

/-- `LD F, Vx` (R194). -/
def execLdF (x : RegIx) (s : State) : Answer := .next { s with i := glyphAddress (s.regWord x) }.advance

/-- `for j in 0 .. count-1: MemWrite(base + j, 1, V[j])`, in that order (R195). -/
def State.storeRegs (s : State) (base : Nat) : Nat → State
  | 0 => s
  | count + 1 =>
    let t := State.storeRegs s base count
    { t with mem := t.mem.write (base + count) (t.reg (Fin.ofNat 16 count)) }

/-- `for j in 0 .. count-1: V[j] <- MemRead(base + j, 1)`, in that order (R196). -/
def State.loadRegs (s : State) (base : Nat) : Nat → State
  | 0 => s
  | count + 1 =>
    let t := State.loadRegs s base count
    t.setReg (Fin.ofNat 16 count) (t.mem.read (base + count))

/-- `LD [I], Vx`, block store of `x + 1` bytes (R195). -/
def execLdMemVx (x : RegIx) (s : State) : Answer :=
  if fits s.i.toNat (x.val + 1) then .next (s.storeRegs s.i.toNat (x.val + 1)).advance
  else .next (s.raise (.bounds (firstOutside s.i.toNat)))

/-- `LD Vx, [I]`, block load of `x + 1` bytes (R196). -/
def execLdVxMem (x : RegIx) (s : State) : Answer :=
  if fits s.i.toNat (x.val + 1) then .next (s.loadRegs s.i.toNat (x.val + 1)).advance
  else .next (s.raise (.bounds (firstOutside s.i.toNat)))

end Sys2Proof.Machine
end

