-- ==== Sys2Proof/Machine/Input.lean ====
section
/-! DEFINITION. Keys and timers (spec/48_host_context.md section 4). -/

namespace Sys2Proof.Machine

/-- A key-skip under a `KEYIDX_POLICY` (R187, R188): skip when the state of the key numbered `V[x]` is `want`. "Defined
for `V[x]` 0 to 15"; above 15 the policy says what happens. A bounds error would record `max(V[x], 4096)`, by R221's
formula (log entry 19). -/
def skipOnKey (policy : Config.KeyPolicy) (want : Bool) (x : RegIx) (s : State) : Answer :=
  match s.keyState policy (s.reg x) with
  | .held pressed => .next (s.skipIf (pressed == want))
  | .boundsError => .next (s.raise (.bounds (firstOutside (s.reg x).toNat)))
  | .refused => .refused (.keyIndexOpen (s.reg x))

/-- `SKP Vx` (R187), with the default of `KEYIDX_POLICY`. -/
def execSkp (x : RegIx) (s : State) : Answer := skipOnKey Config.refuseKeys true x s

/-- `SKNP Vx` (R188), with the default of `KEYIDX_POLICY`. -/
def execSknp (x : RegIx) (s : State) : Answer := skipOnKey Config.refuseKeys false x s

/-- Wait for key under a `KEYSEL` (R192, R10): with a key held, store its index and fall through;
with none held, nothing changes and `PC` stays. -/
def waitKey (sel : Config.KeySel) (x : RegIx) (s : State) : State :=
  match sel s.key with
  | some j => (s.setReg x (BitVec.ofNat 8 j.val)).advance
  | none => s

/-- `LD Vx, K` (R192), with the default of `KEYSEL`. -/
def execLdVxK (x : RegIx) (s : State) : Answer := .next (waitKey lowestHeld x s)

/-- `LD Vx, DT` (R189). -/
def execLdVxDt (x : RegIx) (s : State) : Answer := .next (s.setReg x s.dt).advance

/-- `LD DT, Vx` (R190). -/
def execLdDtVx (x : RegIx) (s : State) : Answer := .next { s with dt := s.reg x }.advance

/-- `LD ST, Vx` (R191). -/
def execLdStVx (x : RegIx) (s : State) : Answer := .next { s with st := s.reg x }.advance

end Sys2Proof.Machine
end

