-- ==== Sys2Proof/WellFormed.lean ====
section
/-! DEFINITION. Which instructions and which host calls are well formed. -/

namespace Sys2Proof

/-- Every instruction is well formed: each operand's type is exactly its field's width, and no field value is
reserved (R91: "there is no reserved value of any field"; R101: every word is an instruction or an unknown opcode).
There is nothing left to check on an instruction. -/
def Instr.wf (_ : Instr) : Bool := true

/-- A host call inside the domain its rule states: an image of at most 3584 bytes (R198: "If `len(bytes) > 4096 -
0x200 = 3584`: reject"), a key index 0 to 15 (R200: "An index outside 0 to 15 is outside the stated domain"). -/
def HostCall.wf : HostCall → Bool
  | .loadProgram bytes => bytes.length ≤ Config.maxImage
  | .tickTimers => true
  | .setKey index _ => index < 16
  | .reset => true

end Sys2Proof
end

