-- ==== Sys2Proof/Decode.lean ====
section
/-! DEFINITION. The decoder, total on any bytes, rejecting by name, and the encoder
(spec/30_encoding.md R80 to R101). The opcode assignment `OPMAP` is one table, as R90 asks, which decoder and encoder both
take as an argument (R10); its default is the assignment of R91 to R94. -/

namespace Sys2Proof

/-- Nibble `j` of a word: 0 is `n1 = w[3:0]`, 3 is `n4 = w[15:12]` (R81). -/
def nibble (w : Word) (j : Nat) : Fin 16 := Fin.ofNat 16 (w.toNat / 16 ^ j)

/-- `x = n3 = w[11:8]` (R82). -/
def fieldX (w : Word) : RegIx := nibble w 2

/-- `y = n2 = w[7:4]` (R83). -/
def fieldY (w : Word) : RegIx := nibble w 1

/-- `n = n1 = w[3:0]` (R84). -/
def fieldN (w : Word) : Fin 16 := nibble w 0

/-- `kk = w[7:0]` (R85). -/
def fieldKK (w : Word) : Byte := BitVec.ofNat 8 w.toNat

/-- `nnn = w[11:0]` (R86). -/
def fieldNNN (w : Word) : Addr12 := BitVec.ofNat 12 w.toNat

/-- The secondary dispatch key of a row: none, `n1` (family 0x8), or the full lower byte (families 0x0, 0xE, 0xF)
(R89). -/
inductive SubKey where
  | none
  | n1 (k : Nat)
  | low (b : Nat)
deriving DecidableEq, Repr

/-! ### The operand fields of R87's layouts, each at its place in the word -/

/-- `x` in the layouts `XLL`. -/
def layoutX (x : RegIx) : Nat := x.val * 256

/-- `x` and `y` in the layout `XYO`. -/
def layoutXY (x y : RegIx) : Nat := x.val * 256 + y.val * 16

/-- The layout `XYN`. -/
def layoutXYN (x y : RegIx) (n : Fin 16) : Nat := x.val * 256 + y.val * 16 + n.val

/-- The layout `XKK`. -/
def layoutXKK (x : RegIx) (kk : Byte) : Nat := x.val * 256 + kk.toNat

/-- The layout `NNN`. -/
def layoutNNN (nnn : Addr12) : Nat := nnn.toNat

/-! ### The opcode map -/

/-- One row of the opcode map: the mnemonic of spec/opcode_table.json, the dispatch keys, the instruction the row's
fields make of a word, and the operand bits of an instruction of this row. -/
structure OpRow where
  mnemonic : String
  n4 : Nat
  sub : SubKey
  build : Word → Instr
  operands : Instr → Option Nat

/-- The word has the secondary key: every other bit is ignored (R89). -/
def SubKey.selects (k : SubKey) (w : Word) : Bool :=
  match k with
  | .none => true
  | .n1 k => w.toNat % 16 == k
  | .low b => w.toNat % 256 == b

/-- "Dispatch keys on n4 first; for opcode families sharing n4 ... a secondary dispatch" (R89). -/
def OpRow.selects (r : OpRow) (w : Word) : Bool := w.toNat / 4096 == r.n4 && r.sub.selects w

/-- The row's mask, as spec/opcode_table.json gives it: the key bits. -/
def OpRow.mask (r : OpRow) : Nat :=
  match r.sub with
  | .none => 0xF000
  | .n1 _ => 0xF00F
  | .low _ => 0xF0FF

/-- The row's match value, as spec/opcode_table.json gives it. -/
def OpRow.pattern (r : OpRow) : Nat :=
  match r.sub with
  | .none => r.n4 * 4096
  | .n1 k => r.n4 * 4096 + k
  | .low b => r.n4 * 4096 + b

/-- The block's three commands (R91, R92, R93). -/
def blockRows : List OpRow :=
  [ ⟨"DRW", 0xD, .none, fun w => .drw (fieldX w) (fieldY w) (fieldN w),
      (fun | .drw x y n => some (layoutXYN x y n) | _ => none)⟩,
    ⟨"CLS", 0x0, .low 0xE0, fun _ => .cls,
      (fun | .cls => some 0 | _ => none)⟩,
    ⟨"BCD", 0xF, .low 0x33, fun w => .bcd (fieldX w),
      (fun | .bcd x => some (layoutX x) | _ => none)⟩ ]

/-- The host core's control transfers and immediates (R94). -/
def controlRows : List OpRow :=
  [ ⟨"RET", 0x0, .low 0xEE, fun _ => .ret,
      (fun | .ret => some 0 | _ => none)⟩,
    ⟨"JP", 0x1, .none, fun w => .jp (fieldNNN w),
      (fun | .jp nnn => some (layoutNNN nnn) | _ => none)⟩,
    ⟨"CALL", 0x2, .none, fun w => .call (fieldNNN w),
      (fun | .call nnn => some (layoutNNN nnn) | _ => none)⟩,
    ⟨"SE_imm", 0x3, .none, fun w => .seImm (fieldX w) (fieldKK w),
      (fun | .seImm x kk => some (layoutXKK x kk) | _ => none)⟩,
    ⟨"SNE_imm", 0x4, .none, fun w => .sneImm (fieldX w) (fieldKK w),
      (fun | .sneImm x kk => some (layoutXKK x kk) | _ => none)⟩,
    ⟨"SE_reg", 0x5, .none, fun w => .seReg (fieldX w) (fieldY w),
      (fun | .seReg x y => some (layoutXY x y) | _ => none)⟩,
    ⟨"LD_imm", 0x6, .none, fun w => .ldImm (fieldX w) (fieldKK w),
      (fun | .ldImm x kk => some (layoutXKK x kk) | _ => none)⟩,
    ⟨"ADD_imm", 0x7, .none, fun w => .addImm (fieldX w) (fieldKK w),
      (fun | .addImm x kk => some (layoutXKK x kk) | _ => none)⟩ ]

/-- The nine ALU operations, told apart by `n1` (R94). -/
def aluRows : List OpRow :=
  [ ⟨"LD_reg", 0x8, .n1 0x0, fun w => .ldReg (fieldX w) (fieldY w),
      (fun | .ldReg x y => some (layoutXY x y) | _ => none)⟩,
    ⟨"OR", 0x8, .n1 0x1, fun w => .orReg (fieldX w) (fieldY w),
      (fun | .orReg x y => some (layoutXY x y) | _ => none)⟩,
    ⟨"AND", 0x8, .n1 0x2, fun w => .andReg (fieldX w) (fieldY w),
      (fun | .andReg x y => some (layoutXY x y) | _ => none)⟩,
    ⟨"XOR", 0x8, .n1 0x3, fun w => .xorReg (fieldX w) (fieldY w),
      (fun | .xorReg x y => some (layoutXY x y) | _ => none)⟩,
    ⟨"ADD_reg", 0x8, .n1 0x4, fun w => .addReg (fieldX w) (fieldY w),
      (fun | .addReg x y => some (layoutXY x y) | _ => none)⟩,
    ⟨"SUB", 0x8, .n1 0x5, fun w => .subReg (fieldX w) (fieldY w),
      (fun | .subReg x y => some (layoutXY x y) | _ => none)⟩,
    ⟨"SHR", 0x8, .n1 0x6, fun w => .shr (fieldX w) (fieldY w),
      (fun | .shr x y => some (layoutXY x y) | _ => none)⟩,
    ⟨"SUBN", 0x8, .n1 0x7, fun w => .subnReg (fieldX w) (fieldY w),
      (fun | .subnReg x y => some (layoutXY x y) | _ => none)⟩,
    ⟨"SHL", 0x8, .n1 0xE, fun w => .shl (fieldX w) (fieldY w),
      (fun | .shl x y => some (layoutXY x y) | _ => none)⟩ ]

/-- The other single-key rows (R94). -/
def indexRows : List OpRow :=
  [ ⟨"SNE_reg", 0x9, .none, fun w => .sneReg (fieldX w) (fieldY w),
      (fun | .sneReg x y => some (layoutXY x y) | _ => none)⟩,
    ⟨"LD_I", 0xA, .none, fun w => .ldI (fieldNNN w),
      (fun | .ldI nnn => some (layoutNNN nnn) | _ => none)⟩,
    ⟨"JP_V0", 0xB, .none, fun w => .jpV0 (fieldNNN w),
      (fun | .jpV0 nnn => some (layoutNNN nnn) | _ => none)⟩,
    ⟨"RND", 0xC, .none, fun w => .rnd (fieldX w) (fieldKK w),
      (fun | .rnd x kk => some (layoutXKK x kk) | _ => none)⟩ ]

/-- Families 0xE and 0xF of the host core, told apart by the low byte (R94). -/
def lowByteRows : List OpRow :=
  [ ⟨"SKP", 0xE, .low 0x9E, fun w => .skp (fieldX w),
      (fun | .skp x => some (layoutX x) | _ => none)⟩,
    ⟨"SKNP", 0xE, .low 0xA1, fun w => .sknp (fieldX w),
      (fun | .sknp x => some (layoutX x) | _ => none)⟩,
    ⟨"LD_Vx_DT", 0xF, .low 0x07, fun w => .ldVxDt (fieldX w),
      (fun | .ldVxDt x => some (layoutX x) | _ => none)⟩,
    ⟨"LD_Vx_K", 0xF, .low 0x0A, fun w => .ldVxK (fieldX w),
      (fun | .ldVxK x => some (layoutX x) | _ => none)⟩,
    ⟨"LD_DT_Vx", 0xF, .low 0x15, fun w => .ldDtVx (fieldX w),
      (fun | .ldDtVx x => some (layoutX x) | _ => none)⟩,
    ⟨"LD_ST_Vx", 0xF, .low 0x18, fun w => .ldStVx (fieldX w),
      (fun | .ldStVx x => some (layoutX x) | _ => none)⟩,
    ⟨"ADD_I", 0xF, .low 0x1E, fun w => .addI (fieldX w),
      (fun | .addI x => some (layoutX x) | _ => none)⟩,
    ⟨"LD_F", 0xF, .low 0x29, fun w => .ldF (fieldX w),
      (fun | .ldF x => some (layoutX x) | _ => none)⟩,
    ⟨"LD_mem_Vx", 0xF, .low 0x55, fun w => .ldMemVx (fieldX w),
      (fun | .ldMemVx x => some (layoutX x) | _ => none)⟩,
    ⟨"LD_Vx_mem", 0xF, .low 0x65, fun w => .ldVxMem (fieldX w),
      (fun | .ldVxMem x => some (layoutX x) | _ => none)⟩ ]

/-- The parameter `OPMAP`, "which 16-bit words select which operation" (R10): the block's rows and the host core's
(R88). -/
structure OpMap where
  block : List OpRow
  host : List OpRow

/-- All the rows of a map. -/
def OpMap.rows (om : OpMap) : List OpRow := om.block ++ om.host

/-- The default of `OPMAP`, the assignment of R90: "one table ... so that a later audit against the repository changes a
table and no rule" (R90, R10; decision D1). Log entry 5. -/
def OpMap.default : OpMap := ⟨blockRows, controlRows ++ aluRows ++ indexRows ++ lowByteRows⟩

/-- The rows of the default map. -/
def opmap : List OpRow := OpMap.default.rows

/-- The instruction a word is, or `none` for an unknown opcode (R99, R101). -/
def decodeWord (w : Word) (om : OpMap := OpMap.default) : Option Instr :=
  (om.rows.find? fun r => r.selects w).map fun r => r.build w

/-- The block's own decoder: `claimed = 1` exactly for the three patterns of R91, R92 and R93 (R88). -/
def claimed (w : Word) (om : OpMap := OpMap.default) : Bool := om.block.any fun r => r.selects w

/-- `w = {b0, b1}`: the byte at the lower address is `w[15:8]` (R52, R80). -/
def wordOfBytes (b0 b1 : Byte) : Word := b0 ++ b1

/-- The two bytes of a word in the order of rising addresses (R52, R80). -/
def bytesOfWord (w : Word) : List Byte := [BitVec.ofNat 8 (w.toNat / 256), BitVec.ofNat 8 w.toNat]

/-- Why bytes do not decode. -/
inductive DecodeError where
  /-- the word matches no row: an unknown opcode, a no-op with a diagnostic and not a fault (R99) -/
  | unknownOpcode (w : Word)
  /-- fewer than the two bytes of an instruction (R80) -/
  | truncated
deriving DecidableEq, Repr

/-- The decoder on bytes: the instruction at their head and the bytes after it. -/
def decode (bytes : List Byte) (om : OpMap := OpMap.default) : Except DecodeError (Instr × List Byte) :=
  match bytes with
  | b0 :: b1 :: rest =>
    match decodeWord (wordOfBytes b0 b1) om with
    | some i => .ok (i, rest)
    | none => .error (.unknownOpcode (wordOfBytes b0 b1))
  | _ => .error .truncated

/-- The instruction this decoder reads from an instruction whose bits are `w`, `nbits` of them, numbered as
spec/opcode_table.json numbers them. -/
def decodeTableWord (nbits w : Nat) : Option Instr :=
  match decode (bytesOfWord (BitVec.ofNat 16 (w % 2 ^ nbits))) with
  | .ok (i, _) => some i
  | .error _ => none

/-! ### The encoder, reading the same table -/

/-- The row's word with the given operand bits and 0 in every ignored bit (R89). -/
def OpRow.word (r : OpRow) (bits : Nat) : Word := BitVec.ofNat 16 (r.pattern + bits)

/-- The canonical word an opcode map gives an instruction, if it has a row for it. -/
def OpMap.encode? (om : OpMap) (i : Instr) : Option Word :=
  om.rows.findSome? fun r => (r.operands i).map r.word

/-- The canonical word of an instruction; 0 where the map has no row for it. The default map has one for every
instruction. -/
def encode (i : Instr) (om : OpMap := OpMap.default) : Word := (om.encode? i).getD 0

/-- The two bytes an assembler emits for an instruction. -/
def encodeBytes (i : Instr) : List Byte := bytesOfWord (encode i)

end Sys2Proof
end

