-- ==== Sys2Proof/Machine/Fetch.lean ====
section
/-! DEFINITION. The part of a step before the instruction runs: the latched fault, the fetch, the decode
(spec/48_host_context.md R160, R161, R197), and placing an instruction where the next fetch reads it. -/

namespace Sys2Proof.Machine

/-- What a step finds, in the order of priority of R230. -/
inductive Fetched where
  /-- a fault is latched: nothing is fetched (R227) -/
  | latched (kind : FaultKind) (addr : Word)
  /-- an address of the fetch is above 4095 (R161) -/
  | outside (addr : Nat)
  /-- the word is an unknown opcode (R99) -/
  | unknown (w : Word)
  /-- the word is an instruction -/
  | instr (i : Instr)
deriving DecidableEq, Repr

/-- The big-endian word at `PC` and `PC + 1` (R52, R161). -/
def State.fetchWord (s : State) : Word :=
  wordOfBytes (s.mem.read s.pc.toNat) (s.mem.read (s.pc.toNat + 1))

/-- R160's first lines, with R161's bounds check on `PC` and `PC + 1`; dispatch depends on the word alone (R162), under
the opcode map (R10). -/
def fetchDecode (s : State) (om : OpMap := OpMap.default) : Fetched :=
  if s.flt.kind ≠ .none then .latched s.flt.kind s.flt.addr
  else if fits s.pc.toNat 2 then
    match decodeWord s.fetchWord om with
    | some i => .instr i
    | none => .unknown s.fetchWord
  else .outside (firstOutside s.pc.toNat)

/-- An unknown opcode changes nothing but `PC <- (PC + 2) mod 65536` (R197). Its diagnostic is an output of the step
(Machine/Outputs.lean). -/
def unknownOpcode (s : State) : State := s.advance

/-- The machine with a fetch possible: no fault latched, and `PC` at the entry point 0x200 when it stood where no fetch
is legal. Log entry 12. -/
def State.readyToFetch (s : State) : State :=
  { s with
    flt := ⟨.none, 0⟩
    pc := if fits s.pc.toNat 2 then s.pc else BitVec.ofNat 16 Config.progBase }

/-- A word placed at `PC` and `PC + 1` of a machine that can fetch. -/
def State.placeWord (s : State) (w : Word) : State :=
  let t := s.readyToFetch
  { t with mem := t.mem.writeBytes t.pc.toNat (bytesOfWord w) }

end Sys2Proof.Machine
end

