-- ==== Sys2Proof/Machine/Params.lean ====
section
/-! DEFINITION. The machine as a function of the open parameters of spec/00_scope.md R10, "The model takes these as
arguments or draws". `OPMAP`, `KEYSEL` and `KEYIDX_POLICY` are the fields of `Params`; `RAND` is a draw
(`Config.randByte`), and `FONT_IMAGE` is the argument of the platform's move (`placeFont`) and of `boot`. Log entry 19. -/

namespace Sys2Proof.Machine

/-- The open parameters, each with the default R10 gives it. -/
structure Params where
  /-- `OPMAP` -/
  opmap : OpMap := OpMap.default
  /-- `KEYSEL` -/
  keySel : Config.KeySel := lowestHeld
  /-- `KEYIDX_POLICY` -/
  keyIdx : Config.KeyPolicy := Config.refuseKeys

/-- R10's defaults. -/
def Params.default : Params := { }

/-- One instruction under the open parameters. Three instructions depend on one of them (R187, R188, R192); every other
one has its one meaning. -/
def execWith (p : Params) (i : Instr) (s : State) : Answer :=
  match i with
  | .skp x => skipOnKey p.keyIdx true x s
  | .sknp x => skipOnKey p.keyIdx false x s
  | .ldVxK x => .next (waitKey p.keySel x s)
  | i => exec i s

/-- `step()` under the open parameters: "One call executes exactly one instruction" (R160). -/
def stepWith (p : Params) (s : State) : Answer :=
  match fetchDecode s p.opmap with
  | .latched kind addr => .fault (.latched kind addr)
  | .outside a => .next (s.raise (.bounds a))
  | .unknown _ => .next (unknownOpcode s)
  | .instr i => execWith p i s

end Sys2Proof.Machine
end

