-- ==== Sys2Proof/Machine/Step.lean ====
section
/-! DEFINITION. One step of the machine (spec/48_host_context.md R160). -/

namespace Sys2Proof.Machine

/-- `step()` (R160), with the open parameters at R10's defaults. -/
def step (s : State) : Host.Outcome State Fault Refusal := stepWith Params.default s

/-- `s` with the instruction whose `nbits` bits are `w` stored where `step` fetches its next instruction. -/
def State.withFetchWord (s : State) (nbits w : Nat) : State :=
  s.placeWord (BitVec.ofNat 16 (w % 2 ^ nbits))

end Sys2Proof.Machine
end

