-- ==== Sys2Proof/Machine/Outputs.lean ====
section
/-! DEFINITION. What a step returns to the host environment beside the state: the redraw notice, the unknown-opcode
diagnostic, `Fault` and `Refused` (spec/48_host_context.md R160, R197; spec/40_sprite_draw.md R123). These are "an
output of the step only", not state (R37, R123). -/

namespace Sys2Proof.Machine

/-- The diagnostic of an unknown opcode: "an output event carrying `w` and the `PC` it was fetched from" (R197). -/
structure Diagnostic where
  word : Word
  pc : Word
deriving DecidableEq, Repr

/-- What one call of `step()` returns (R160). -/
inductive StepReturn where
  /-- a fault was latched before: nothing happened (R227) -/
  | refused
  /-- the step raised a fault; `redrawNeeded = false` (R226) -/
  | fault
  /-- the step completed (R123, R197) -/
  | done (redrawNeeded : Bool) (diagnostic : Option Diagnostic)
deriving DecidableEq, Repr

/-- Which instructions report a redraw on completing: the sprite draw alone, "false for CLS" (R123). -/
def redraws : Instr → Bool
  | .drw _ _ _ => true
  | _ => false

/-- What an instruction that answered `a` returns: nothing where the model gives no next state, `Fault` where the
instruction latched a fault, else the redraw notice. -/
def returnOf (i : Instr) (a : Answer) : Option StepReturn :=
  match a with
  | .next t => if t.flt.kind = .none then some (.done (redraws i) none) else some .fault
  | .fault _ => none
  | .refused _ => none

/-- What `step()` returns from a state (R160), under the open parameters (R10). -/
def stepReturn (s : State) (p : Params := Params.default) : Option StepReturn :=
  match fetchDecode s p.opmap with
  | .latched _ _ => some .refused
  | .outside _ => some .fault
  | .unknown w => some (.done false (some ⟨w, s.pc⟩))
  | .instr i => returnOf i (execWith p i s)

end Sys2Proof.Machine
end

