-- ==== Sys2Proof/Machine/Ports.lean ====
section
/-! DEFINITION. The block at its ports (spec/10_state.md R40): the transfers of one `cmd`, "an event inside one atomic
command, with no clock, handshake or latency". The block decodes by the same `OPMAP` as the host core (R88, R10). While a fault is latched "the block accepts no command" (R227): then
there is no transfer. The ports `disp`, `flt` and `rst` belong to the host environment and
stand in Machine/HostCalls.lean. The order of the transfers is that of the pseudocode of R112 and R141 (log entry 14). -/

namespace Sys2Proof.Machine

/-- The payload of `rsp` (R40). -/
structure BlockRsp where
  /-- the word is one of the block's (R88) -/
  claimed : Bool
  /-- the command raised a fault -/
  fault : Bool
  redrawNeeded : Bool
deriving DecidableEq, Repr

/-- One transfer at a port of the block (R40). -/
inductive PortTransfer where
  | cmd (w : Word)
  | rfRdA (x : RegIx) (v : Byte)
  | rfRdB (y : RegIx) (v : Byte)
  | idx (i : Word)
  | memRd (addr : Nat) (b : Byte)
  | memWr (addr : Nat) (b : Byte)
  | rfWrF (v : Byte)
  | rsp (r : BlockRsp)
deriving DecidableEq, Repr

/-- Whether the block accepts a command: not while a fault is latched (R227). -/
def State.acceptsCommand (s : State) : Bool := s.flt.kind == .none

/-- The effect of the block's command for an instruction; `none` for what the host core executes itself (R88). -/
def commandEffect : Instr → State → Option BlockResult
  | .drw x y n, s => some (drwCommand x y n s)
  | .cls, s => some (clsCommand s)
  | .bcd x, s => some (bcdCommand x s)
  | _, _ => none

/-- The block's command as the block runs it: what it accepts, and nothing while a fault is latched (R227). -/
def blockCommand (i : Instr) (s : State) : Option BlockResult :=
  if s.acceptsCommand then commandEffect i s else none

/-- The payload of `rsp` for a word: an unclaimed word "is none of the block's business" (R88). -/
def rspPayload (w : Word) (s : State) (om : OpMap := OpMap.default) : BlockRsp :=
  match (decodeWord w om).bind fun i => (blockCommand i s).map fun r => (i, r) with
  | some (.drw _ _ _, .done _) => ⟨true, false, true⟩
  | some (_, .done _) => ⟨true, false, false⟩
  | some (_, .fault _) => ⟨true, true, false⟩
  | none => ⟨false, false, false⟩

/-- What the block answers to a `cmd`: nothing while it accepts no command (R227, log entry 17). -/
def blockRsp (w : Word) (s : State) (om : OpMap := OpMap.default) : Option BlockRsp :=
  if s.acceptsCommand then some (rspPayload w s om) else none

/-- Bytes read from or written to rising addresses, each as one transfer (R55). -/
def byteTransfers (mk : Nat → Byte → PortTransfer) : Nat → List Byte → List PortTransfer
  | _, [] => []
  | a, b :: bytes => mk a b :: byteTransfers mk (a + 1) bytes

/-- The transfers between `cmd` and `rsp` of a completed or faulting command: register and index reads, then for a
command that is done its memory accesses, then for DRW the write of VF (R26, R112, R141). -/
def commandTransfers (i : Instr) (s : State) : List PortTransfer :=
  match i with
  | .drw x y n =>
    [.rfRdA x (s.reg x), .rfRdB y (s.reg y), .idx s.i] ++
      match drwCommand x y n s with
      | .done t => byteTransfers .memRd s.i.toNat (s.mem.readBytes s.i.toNat n.val) ++ [.rfWrF (t.reg vf)]
      | .fault _ => []
  | .bcd x =>
    [.rfRdA x (s.reg x), .idx s.i] ++
      match bcdCommand x s with
      | .done _ => byteTransfers .memWr s.i.toNat (unpack (bcd12 (s.reg x)))
      | .fault _ => []
  | _ => []

/-- The transfers between `cmd` and `rsp` for a word; none for one that is no instruction (R88). -/
def wordTransfers (w : Word) (s : State) (om : OpMap := OpMap.default) : List PortTransfer :=
  match decodeWord w om with
  | some i => commandTransfers i s
  | none => []

/-- All the transfers of one `cmd` (R40, R88); none where the block accepts no command (R227). -/
def blockTransfers (w : Word) (s : State) (om : OpMap := OpMap.default) : List PortTransfer :=
  match blockRsp w s om with
  | some r => [.cmd w] ++ wordTransfers w s om ++ [.rsp r]
  | none => []

/-- What a transfer does to the host core's state: only the two write ports change it (R26, R40). -/
def PortTransfer.apply (p : PortTransfer) (s : State) : State :=
  match p with
  | .memWr a b => { s with mem := s.mem.write a b }
  | .rfWrF b => s.setReg vf b
  | _ => s

end Sys2Proof.Machine
end

