-- ==== Sys2Proof/Machine/HostCalls.lean ====
section
/-! DEFINITION. The calls of the host environment, between steps (spec/48_host_context.md section 7, R39, R203). They
work in every state, a faulted one included (R203, D29). -/

namespace Sys2Proof.Machine

/-- How a host call ends. -/
inductive CallResult where
  | ok (s : State)
  /-- `OversizedLoad`, returned to the caller; nothing changed (R225) -/
  | oversizedLoad
  /-- a key index outside 0 to 15: "outside the stated domain; a model refuses it" (R200) -/
  | refusedIndex
deriving DecidableEq, Repr

/-- `loadProgram(bytes)` (R198, R46): the bytes at 0x200 on, `PC <- 0x0200`, nothing else. -/
def loadProgram (bytes : List Byte) (s : State) : CallResult :=
  if bytes.length > Config.maxImage then .oversizedLoad
  else .ok { s with mem := s.mem.writeBytes Config.progBase bytes, pc := BitVec.ofNat 16 Config.progBase }

/-- A countdown by 1, "clamped at 0" (R199). -/
def countDown (t : Byte) : Byte := if t.toNat > 0 then t - 1 else t

/-- `tickTimers()` (R199). -/
def tickTimers (s : State) : State := { s with dt := countDown s.dt, st := countDown s.st }

/-- `setKey(index, pressed)` (R200). -/
def setKey (index : Nat) (pressed : Bool) (s : State) : CallResult :=
  if h : index < 16 then .ok { s with key := s.key.set index pressed } else .refusedIndex

/-- The platform, no call of the host environment, places the 80 bytes of `FONT_IMAGE` at `FONT_BASE`: it "writes it to
`MEM[0..79]` between `reset()` and `loadProgram`" (R10, R262 step 2, decision D13). A run makes this move between those
two calls alone (`Move.placeFont`, Safety.lean). Log entry 13. -/
def placeFont (image : Vector Byte 80) (s : State) : State :=
  { s with mem := s.mem.writeBytes Config.fontBase image.toList }

/-- What a host call does to the state; "The host environment's only writer of `MEM` is `loadProgram`" (R63), beside the
`reset()` that zeroes it. `reset()` "zeroes all Machine State" (R201, R260); the counter `draws` is the
model's own and counts on, so that RAND stays fresh over a reset (log entry 1). -/
def applyHostCall : HostCall → State → CallResult
  | .loadProgram bytes, s => loadProgram bytes s
  | .tickTimers, s => .ok (tickTimers s)
  | .setKey index pressed, s => setKey index pressed s
  | .reset, s => .ok { State.reset with draws := s.draws }

/-- `getDisplay()`, the port `disp`: cell `FB[k]` for every `k` (R202, R40). -/
def getDisplay (s : State) : Vector Bool 2048 := Vector.ofFn fun k => Display.at s.fb k

/-- `getSoundLevel()` (R202). -/
def getSoundLevel (s : State) : Byte := s.st

/-- The numeric code of `FLT.kind` (R35). -/
def FaultKind.code : FaultKind → BitVec 2
  | .none => 0
  | .bounds => 1
  | .stackOverflow => 2
  | .stackUnderflow => 3

/-- The port `flt`: the 18 bits of `FLT`, `kind` in bits 17:16 (R35, R40). -/
def faultPort (s : State) : BitVec 18 := s.flt.kind.code ++ s.flt.addr

/-- The host environment's sequence to start a program: `reset()`, optionally the font, `loadProgram(bytes)` (R262). -/
def boot (font : Option (Vector Byte 80)) (bytes : List Byte) : CallResult :=
  match font with
  | some image => loadProgram bytes (placeFont image State.reset)
  | none => loadProgram bytes State.reset

/-- Glyphs 0 to 7 of the common font (spec/93_implementation_defined.md section 3, general knowledge; default
absent). -/
def commonFontLow : List Byte :=
  [ 0xF0, 0x90, 0x90, 0x90, 0xF0,  0x20, 0x60, 0x20, 0x20, 0x70,
    0xF0, 0x10, 0xF0, 0x80, 0xF0,  0xF0, 0x10, 0xF0, 0x10, 0xF0,
    0x90, 0x90, 0xF0, 0x10, 0x10,  0xF0, 0x80, 0xF0, 0x10, 0xF0,
    0xF0, 0x80, 0xF0, 0x90, 0xF0,  0xF0, 0x10, 0x20, 0x40, 0x40 ]

/-- Glyphs 8 to F of the common font. -/
def commonFontHigh : List Byte :=
  [ 0xF0, 0x90, 0xF0, 0x90, 0xF0,  0xF0, 0x90, 0xF0, 0x10, 0xF0,
    0xF0, 0x90, 0xF0, 0x90, 0x90,  0xE0, 0x90, 0xE0, 0x90, 0xE0,
    0xF0, 0x80, 0x80, 0x80, 0xF0,  0xE0, 0x90, 0x90, 0x90, 0xE0,
    0xF0, 0x80, 0xF0, 0x80, 0xF0,  0xF0, 0x80, 0xF0, 0x80, 0x80 ]

/-- The common font as a `FONT_IMAGE` a platform may choose to supply. -/
def commonFont : Vector Byte 80 := ⟨(commonFontLow ++ commonFontHigh).toArray, rfl⟩

end Sys2Proof.Machine
end

