-- ==== Sys2Proof/Safety.lean ====
section
/-! DEFINITION. What a safe run is, and the invariant of the machine, in the terms the statements use. -/

namespace Sys2Proof.Machine

/-- No fault is latched: the next `step()` is not refused (R227). -/
def State.Running (s : State) : Prop := s.flt.kind = .none

/-- The fault register tells the truth: clear, it holds address 0 (R35); a latched Bounds holds an address above 4095
(R221); a latched stack fault was raised with the stack full or empty, and SP has not moved since (R222, R223,
R226). -/
def State.FaultTruth (s : State) : Prop :=
  match s.flt.kind with
  | .none => s.flt.addr = 0
  | .bounds => 4096 ≤ s.flt.addr.toNat
  | .stackOverflow => s.sp = 16
  | .stackUnderflow => s.sp = 0

/-- The invariant: memory is in its one canonical form, with no byte outside `MEM[0..4095]` (R30, R56), and the fault
register tells the truth. The ranges of R47 are the fields' types. -/
def State.Inv (s : State) : Prop := s.mem.wf = true ∧ s.FaultTruth

/-- Where a run stands between `reset()` and `loadProgram` (R262): the history a run carries beside the machine's state.
Log entry 13. -/
inductive Phase where
  /-- no `loadProgram` since the last `reset()` or since creation: the platform may place a font (D13) -/
  | fresh
  /-- a program has been loaded since -/
  | loaded
deriving DecidableEq, Repr

/-- The phase after a host call that was not rejected. -/
def Phase.after (p : Phase) : HostCall → Phase
  | .loadProgram _ => .loaded
  | .tickTimers => p
  | .setKey _ _ => p
  | .reset => .fresh

/-- One transition of the machine and its surroundings: a step or a host call, "between any two steps any number of
host-environment calls may occur in any order" (R39, R203); or, between `reset()` and `loadProgram` alone, the platform's
placing of a font (R262, D13). The open parameters of R10 are fixed for the machine. -/
inductive Move (P : Params) : Phase → State → Phase → State → Prop where
  | step {p : Phase} {s t : State} (h : stepWith P s = .next t) : Move P p s p t
  | call {p : Phase} {s t : State} (c : HostCall) (h : applyHostCall c s = .ok t) : Move P p s (p.after c) t
  | placeFont {s : State} (image : Vector Byte 80) : Move P .fresh s .fresh (placeFont image s)

/-- The states a run can reach from reset, with the phase it reaches them in. -/
inductive ReachableIn (P : Params) : Phase → State → Prop where
  | reset : ReachableIn P .fresh State.reset
  | move {p q : Phase} {s t : State} (hs : ReachableIn P p s) (h : Move P p s q t) : ReachableIn P q t

/-- The states a run can reach from reset, the open parameters being at R10's defaults where none are given. -/
def Reachable (s : State) (P : Params := Params.default) : Prop := ∃ p : Phase, ReachableIn P p s

/-- A safe run's step: from a running state to a running state, so no fault was raised (R220). -/
def SafeStep (s t : State) : Prop := s.Running ∧ step s = .next t ∧ t.Running

end Sys2Proof.Machine
end

