-- ==== Sys2Proof/Certificates/Slice0/Obligations.lean ====
section
/-! DEFINITION. The statements about the machine, for the provers. -/

/-! ### Words the statements use -/

namespace Sys2Proof.Machine

/-- The steps' next state `t` of `s` where only register `x` and `PC` may differ, and `PC` has advanced by 2. -/
def OnlyRegister (x : RegIx) (s t : State) : Prop :=
  t = { s with v := t.v, pc := s.pc + 2 } ∧ ∀ j : RegIx, j ≠ x → t.reg j = s.reg j

/-- The same for an instruction that writes register `x` and the flag VF. -/
def OnlyRegisterAndFlag (x : RegIx) (s t : State) : Prop :=
  t = { s with v := t.v, pc := s.pc + 2 } ∧ ∀ j : RegIx, j ≠ x → j ≠ 15 → t.reg j = s.reg j

/-- The state a running machine leaves behind when it takes a fault: `FLT` and nothing else (R226). -/
def WithFault (s : State) (kind : FaultKind) (addr : Word) : State := { s with flt := ⟨kind, addr⟩ }

/-- The sprite bit over a cell, `S(px, py)` of the closed form of 40_sprite_draw.md section 2: "Here
`r = (py - y0) mod 32` must be below n and `c = (px - x0) mod 64` must be below 8". -/
def SpriteBit (s : State) (x y : RegIx) (n : Fin 16) (px : Fin 64) (py : Fin 32) : Prop :=
  let r := (py.val + 32 - (s.reg y).toNat % 32) % 32
  let c := (px.val + 64 - (s.reg x).toNat % 64) % 64
  r < n.val ∧ c < 8 ∧ (s.mem.read (s.i.toNat + r)).getLsbD (7 - c) = true

/-- A DRW whose sprite lies in memory (R117, R118). -/
def SpriteInMemory (s : State) (n : Fin 16) : Prop := n.val = 0 ∨ s.i.toNat + n.val - 1 ≤ 4095

/-- The calls of a list of targets made one after the other; `none` if one of them gives no next state. -/
def callAll : List Addr12 → State → Option State
  | [], s => some s
  | nnn :: rest, s =>
    match exec (.call nnn) s with
    | .next t => callAll rest t
    | _ => none

/-- `FLT` after the instruction, by the table of R221 and by R222 and R223. -/
def FaultAfter (i : Instr) (s : State) : FaultReg :=
  match i with
  | .drw _ _ n => if 0 < n.val ∧ s.i.toNat + n.val - 1 > 4095 then ⟨.bounds, BitVec.ofNat 16 (max s.i.toNat 4096)⟩ else s.flt
  | .bcd _ => if s.i.toNat ≥ 4094 then ⟨.bounds, BitVec.ofNat 16 (max s.i.toNat 4096)⟩ else s.flt
  | .ldMemVx x => if s.i.toNat + x.val > 4095 then ⟨.bounds, BitVec.ofNat 16 (max s.i.toNat 4096)⟩ else s.flt
  | .ldVxMem x => if s.i.toNat + x.val > 4095 then ⟨.bounds, BitVec.ofNat 16 (max s.i.toNat 4096)⟩ else s.flt
  | .call _ => if s.sp = 16 then ⟨.stackOverflow, s.pc⟩ else s.flt
  | .ret => if s.sp = 0 then ⟨.stackUnderflow, s.pc⟩ else s.flt
  | _ => s.flt

end Sys2Proof.Machine

open Sys2Proof Sys2Proof.Machine

/-! ### Encoding -/

/-- Words written out from the encodings of R91 to R94 (the decode vectors of 95_test_vectors.md section 2, and one
word of each other family). -/
def Obligations.WrittenWordsDecode : Prop :=
  decodeWord 0b1101_1010_1011_0101 = some (.drw 10 11 5) ∧
  decodeWord 0b0000_0111_1110_0000 = some .cls ∧
  decodeWord 0b1111_1110_0011_0011 = some (.bcd 14) ∧
  decodeWord 0b1111_0000_0011_0100 = none ∧
  decodeWord 0b0010_0011_0000_0001 = some (.call 0x301) ∧
  decodeWord 0b0101_0001_0010_0011 = some (.seReg 1 2) ∧
  decodeWord 0b1000_0001_0010_0111 = some (.subnReg 1 2) ∧
  decodeWord 0b1000_0001_0010_1000 = none ∧
  decodeWord 0b1100_0001_0000_1111 = some (.rnd 1 0x0F) ∧
  decodeWord 0b1110_0001_1010_0001 = some (.sknp 1) ∧
  decodeWord 0b1111_0010_0110_0101 = some (.ldVxMem 2)

/-- Decoding the canonical word of an instruction, alone or as the head of any bytes, gives the instruction back, with
every operand. -/
def Obligations.DecodeOfEncode : Prop :=
  ∀ i : Instr, i.wf = true →
    decodeWord (encode i) = some i ∧ ∀ rest : List Byte, decode (encodeBytes i ++ rest) = .ok (i, rest)

/-- Encoding what a word decodes to gives the word back but for its ignored bits: n3 of CLS and RET, n1 of the two
register skip-ifs. So no other bit is dropped. -/
def Obligations.EncodeOfDecodeDropsIgnoredBitsOnly : Prop :=
  ∀ (w : Word) (i : Instr), decodeWord w = some i →
    (encode i).toNat =
      match i with
      | .cls => w.toNat % 256
      | .ret => w.toNat % 256
      | .seReg _ _ => w.toNat / 16 * 16
      | .sneReg _ _ => w.toNat / 16 * 16
      | _ => w.toNat

/-- The unknown words are exactly those listed, the block claims none of them, and such a word is a no-op that advances
PC by 2 with a diagnostic (R99, R197). -/
def Obligations.UnknownOpcodes : Prop :=
  (∀ w : Word, decodeWord w = none ↔
    (w.toNat / 4096 = 0x0 ∧ w.toNat % 256 ≠ 0xE0 ∧ w.toNat % 256 ≠ 0xEE) ∨
    (w.toNat / 4096 = 0x8 ∧ w.toNat % 16 ∈ [0x8, 0x9, 0xA, 0xB, 0xC, 0xD, 0xF]) ∨
    (w.toNat / 4096 = 0xE ∧ w.toNat % 256 ≠ 0x9E ∧ w.toNat % 256 ≠ 0xA1) ∨
    (w.toNat / 4096 = 0xF ∧ w.toNat % 256 ∉ [0x07, 0x0A, 0x15, 0x18, 0x1E, 0x29, 0x33, 0x55, 0x65])) ∧
  (∀ w : Word, decodeWord w = none → claimed w = false) ∧
  ∀ s : State, s.Running → s.pc.toNat ≤ 4094 → decodeWord s.fetchWord = none →
    step s = .next { s with pc := s.pc + 2 } ∧ stepReturn s = some (.done false (some ⟨s.fetchWord, s.pc⟩))

/-- The block claims exactly the words of its three patterns and answers so on every command it accepts; for every other
word it does nothing; and the host core's part of a command is to wait and advance `PC` (R88). -/
def Obligations.BlockClaims : Prop :=
  (∀ w : Word, claimed w = true ↔ w &&& 0xF000 = 0xD000 ∨ w &&& 0xF0FF = 0x00E0 ∨ w &&& 0xF0FF = 0xF033) ∧
  (∀ (w : Word) (s : State), s.Running → ∃ r : BlockRsp, blockRsp w s = some r ∧ r.claimed = claimed w) ∧
  (∀ (w : Word) (s : State), claimed w = false →
    (s.Running → blockRsp w s = some ⟨false, false, false⟩) ∧
    (blockTransfers w s).foldl (fun t p => p.apply t) s = s) ∧
  ∀ (i : Instr) (s : State) (r : BlockResult), commandEffect i s = some r →
    exec i s = match r with
      | .done t => .next { t with pc := t.pc + 2 }
      | .fault e => .next (s.raise e)

/-- A row of `OPMAP` selects exactly the words that its match and mask of spec/opcode_table.json select, and no word is
selected by two rows: block, host core or unknown, exactly one applies. -/
def Obligations.RowsSelectByMaskAndNeverTwice : Prop :=
  (∀ r ∈ opmap, ∀ w : Word, r.selects w = true ↔ w.toNat &&& r.mask = r.pattern) ∧
  ∀ w : Word, (opmap.filter fun r => r.selects w).length ≤ 1

/-! ### The step -/

/-- A step runs the instruction that the two bytes at `PC` decode to; the step adds nothing around it, and `exec`
itself moves `PC`. -/
def Obligations.StepRunsDecodedInstruction : Prop :=
  ∀ (s : State) (i : Instr), s.Running → s.pc.toNat ≤ 4094 → i.wf = true →
    decode [s.mem.read s.pc.toNat, s.mem.read (s.pc.toNat + 1)] = .ok (i, []) → step s = exec i s

/-- The fetch (R161): both bytes must lie in memory, else `BoundsError(max(PC, 4096))` with `PC` unchanged; the word is
big-endian. -/
def Obligations.FetchBoundsAndByteOrder : Prop :=
  ∀ s : State, s.Running →
    (s.pc.toNat + 1 > 4095 → step s = .next (WithFault s .bounds (BitVec.ofNat 16 (max s.pc.toNat 4096)))) ∧
    (s.pc.toNat + 1 ≤ 4095 →
      s.fetchWord.toNat = (s.mem.read s.pc.toNat).toNat * 256 + (s.mem.read (s.pc.toNat + 1)).toNat ∧
      fetchDecode s = match decodeWord s.fetchWord with
        | some i => .instr i
        | none => .unknown s.fetchWord)

/-- A fault is final until reset (R227): each step returns `Refused`, and no host call but `reset()` clears the fault.
That the refused step gives no next state, where the spec has an unchanged one, is the model's own form (log
entry 2). -/
def Obligations.LatchedFaultIsFinal : Prop :=
  ∀ s : State, ¬ s.Running →
    (∀ t : State, step s ≠ .next t) ∧ stepReturn s = some .refused ∧
    (∀ (c : HostCall) (t : State), applyHostCall c s = .ok t → c ≠ .reset → t.flt = s.flt) ∧
    ∃ t : State, applyHostCall .reset s = .ok t ∧ t.Running ∧ t.flt.addr = 0

/-- While a fault is latched "the block accepts no command" (R227): whatever word is offered, no command runs, and there is
no transfer at any port of the block. That `rsp` then carries nothing is log entry 17. -/
def Obligations.LatchedBlockAcceptsNoCommand : Prop :=
  ∀ s : State, ¬ s.Running →
    (∀ i : Instr, blockCommand i s = none) ∧ ∀ w : Word, blockTransfers w s = [] ∧ blockRsp w s = none

/-- When a step raises a fault, `FLT` is set as R220's table says, nothing else changes, and the step returns `Fault`
(R226). -/
def Obligations.RaisedFaultChangesOnlyFlt : Prop :=
  ∀ s t : State, s.Running → step s = .next t → ¬ t.Running →
    t = { s with flt := t.flt } ∧ stepReturn s = some .fault ∧
    ((s.pc.toNat ≥ 4095 ∧ t.flt = ⟨.bounds, BitVec.ofNat 16 (max s.pc.toNat 4096)⟩) ∨
     (s.pc.toNat < 4095 ∧ ∃ i, decodeWord s.fetchWord = some i ∧ t.flt = FaultAfter i s))

/-- Which instructions raise which fault, exactly when, and what `FLT` records (R221, R222, R223). -/
def Obligations.FaultsAsTabulated : Prop :=
  (∀ s t : State, s.Running → s.pc.toNat ≥ 4095 → step s = .next t →
    t.flt = ⟨.bounds, BitVec.ofNat 16 (max s.pc.toNat 4096)⟩) ∧
  ∀ (i : Instr) (s t : State), s.Running → exec i s = .next t → t.flt = FaultAfter i s

/-- Which steps report a redraw: exactly the completed DRW (R123). -/
def Obligations.RedrawReportedByCompletedDrawOnly : Prop :=
  ∀ (s : State) (d : Option Diagnostic), stepReturn s = some (.done true d) ↔
    d = none ∧ s.Running ∧ s.pc.toNat ≤ 4094 ∧
      ∃ x y n, decodeWord s.fetchWord = some (.drw x y n) ∧ SpriteInMemory s n

/-! ### Invariants and whole-machine rules -/

/-- Every field after reset, with `PC` 0x200 after `loadProgram` (R42, R43), and `reset()` from any state gives the same state as
creation (R41). The model's own counter of RAND draws is left out. -/
def Obligations.ResetZeroesEverything : Prop :=
  (∀ k : Fin 2048, Display.at State.reset.fb k = false) ∧ (∀ x : RegIx, State.reset.reg x = 0) ∧
  State.reset.i = 0 ∧ State.reset.pc = 0 ∧ State.reset.sp = 0 ∧ (∀ j : Fin 16, State.reset.stack[j.val] = 0) ∧
  State.reset.dt = 0 ∧ State.reset.st = 0 ∧ (∀ j : Fin 16, State.reset.key[j.val] = false) ∧
  (∀ a : Nat, State.reset.mem.read a = 0) ∧ State.reset.flt = ⟨.none, 0⟩ ∧
  (∀ (bytes : List Byte) (s t : State), applyHostCall (.loadProgram bytes) s = .ok t → t.pc = 0x200) ∧
  ∀ s : State, ∃ d : Nat, applyHostCall .reset s = .ok { State.reset with draws := d }

/-- The open parameters `OPMAP`, `KEYSEL` and `KEYIDX_POLICY` are arguments of the machine (R10): under any of them a step
runs the instruction its opcode map reads; only the key skips see the policy and only wait-for-key the selection; at the
defaults this is `exec` and `step`. That `stepWith` and `execWith` are the functions taking them is the model's form (log
entry 19). -/
def Obligations.OpenParametersActWhereNamed : Prop :=
  (∀ (P : Params) (s : State), s.Running → s.pc.toNat ≤ 4094 →
    stepWith P s = match decodeWord s.fetchWord P.opmap with
      | some i => execWith P i s
      | none => .next { s with pc := s.pc + 2 }) ∧
  (∀ (P Q : Params) (i : Instr) (s : State), ((∀ x, i ≠ .skp x ∧ i ≠ .sknp x) ∨ P.keyIdx = Q.keyIdx) →
    ((∀ x, i ≠ .ldVxK x) ∨ P.keySel = Q.keySel) → execWith P i s = execWith Q i s) ∧
  (∀ (i : Instr) (s : State), execWith Params.default i s = exec i s) ∧
  ∀ s : State, stepWith Params.default s = step s

/-- The invariant holds at reset. -/
def Obligations.ResetMeetsInvariant : Prop := State.reset.Inv

/-- Every step keeps the invariant: memory stays canonical with no byte outside `MEM[0..4095]`, and the fault register
tells the truth. -/
def Obligations.StepKeepsInvariant : Prop := ∀ s t : State, s.Inv → step s = .next t → t.Inv

/-- Every host call keeps the invariant, a faulted state's calls included, and so does the platform's placing of a font
(log entry 13). -/
def Obligations.HostCallsKeepInvariant : Prop :=
  (∀ (c : HostCall) (s t : State), s.Inv → applyHostCall c s = .ok t → t.Inv) ∧
  ∀ (image : Vector Byte 80) (s : State), s.Inv → (placeFont image s).Inv

/-- The host environment writes memory by `loadProgram` alone, beside the `reset()` that zeroes it (R63, R201); of all moves
of a run only a step and, in a phase with no program loaded since `reset()` (D13), the platform's font write it too. The
font fills addresses 0 to 79 and changes nothing else. That the font is a move of its own is the model's form (log
entry 13). -/
def Obligations.HostWritesMemoryByLoadProgramAlone : Prop :=
  (∀ (c : HostCall) (s t : State), applyHostCall c s = .ok t → t.mem ≠ s.mem →
    c = .reset ∨ ∃ bytes, c = .loadProgram bytes) ∧
  (∀ (P : Params) (p q : Phase) (s t : State), Move P p s q t → t.mem ≠ s.mem →
    stepWith P s = .next t ∨ applyHostCall .reset s = .ok t ∨ (∃ bytes, applyHostCall (.loadProgram bytes) s = .ok t) ∨
    (p = .fresh ∧ ∃ image, t = placeFont image s)) ∧
  ∀ (image : Vector Byte 80) (s : State), s.mem.wf = true →
    placeFont image s = { s with mem := (placeFont image s).mem } ∧
    (∀ a (h : a < 80), (placeFont image s).mem.read a = image[a]) ∧
    ∀ a : Nat, 80 ≤ a → (placeFont image s).mem.read a = s.mem.read a

/-- Every state of every run, whatever the order of steps and host calls, with or without a font placed before a program is
loaded, and whatever the open parameters of R10 are, meets the invariant. The address a bounds error for a key number
records is the model's choice (log entry 19). -/
def Obligations.EveryRunMeetsInvariant : Prop := ∀ (P : Params) (s : State), Reachable s P → s.Inv

/-- The writers of `FB`: DRW, CLS and reset, "no other instruction, no host call" (R22). -/
def Obligations.OnlyDrawClearResetWriteDisplay : Prop :=
  (∀ s t : State, step s = .next t → t.fb ≠ s.fb →
    decodeWord s.fetchWord = some .cls ∨ ∃ x y n, decodeWord s.fetchWord = some (.drw x y n)) ∧
  ∀ (c : HostCall) (s t : State), applyHostCall c s = .ok t → t.fb ≠ s.fb → c = .reset

/-- Only the instructions a rule names as its writers change `I`, the stack, the timers or memory, and no instruction
changes a key. The clause on `draws` is about the model's own counter, which no rule of the spec names (log entry 1). -/
def Obligations.OnlyNamedInstructionsWrite : Prop :=
  ∀ s t : State, step s = .next t →
    (t.i ≠ s.i → ∃ i, decodeWord s.fetchWord = some i ∧
      ((∃ nnn, i = .ldI nnn) ∨ (∃ x, i = .addI x) ∨ ∃ x, i = .ldF x)) ∧
    (t.stack ≠ s.stack → ∃ nnn, decodeWord s.fetchWord = some (.call nnn)) ∧
    (t.sp ≠ s.sp → decodeWord s.fetchWord = some .ret ∨ ∃ nnn, decodeWord s.fetchWord = some (.call nnn)) ∧
    (t.dt ≠ s.dt → ∃ x, decodeWord s.fetchWord = some (.ldDtVx x)) ∧
    (t.st ≠ s.st → ∃ x, decodeWord s.fetchWord = some (.ldStVx x)) ∧
    (t.mem ≠ s.mem → ∃ x, decodeWord s.fetchWord = some (.bcd x) ∨ decodeWord s.fetchWord = some (.ldMemVx x)) ∧
    (t.draws ≠ s.draws → ∃ x kk, decodeWord s.fetchWord = some (.rnd x kk)) ∧
    t.key = s.key

/-- "A program can learn about `FB` only through the collision flag DRW leaves in VF" (R23): two machines that differ
in the display alone make steps that end alike but for the display and, after a DRW, VF. -/
def Obligations.DisplayIsSeenThroughCollisionFlagOnly : Prop :=
  ∀ (s t : State) (fb' : Display), step s = .next t →
    ∃ t' : State, step { s with fb := fb' } = .next t' ∧ t' = { t with fb := t'.fb, v := t'.v } ∧
      (∀ j : RegIx, j ≠ 15 → t'.reg j = t.reg j) ∧
      ((¬ ∃ x y n, decodeWord s.fetchWord = some (.drw x y n)) → t'.v = t.v)

/-! ### Display -/

/-- A DRW whose sprite lies in memory gives a next state: each cell is its old value exclusive-or the sprite bit over
it, VF is 1 exactly when a sprite bit lay over a cell that was on, `PC` advances, and nothing else changes. -/
def Obligations.DrawMatchesClosedForm : Prop :=
  ∀ (s : State) (x y : RegIx) (n : Fin 16), SpriteInMemory s n →
    ∃ t : State, exec (.drw x y n) s = .next t ∧
      t = { s with fb := t.fb, v := t.v, pc := s.pc + 2 } ∧ (∀ j : RegIx, j ≠ 15 → t.reg j = s.reg j) ∧
      (∀ px py, Display.cell t.fb px py = true ↔
        (Display.cell s.fb px py = true ∧ ¬ SpriteBit s x y n px py) ∨
        (Display.cell s.fb px py = false ∧ SpriteBit s x y n px py)) ∧
      ((∃ px py, Display.cell s.fb px py = true ∧ SpriteBit s x y n px py) → t.reg 15 = 1) ∧
      ((¬ ∃ px py, Display.cell s.fb px py = true ∧ SpriteBit s x y n px py) → t.reg 15 = 0)

/-- A DRW whose sprite would pass address 4095 takes `BoundsError(max(I, 4096))`, changes nothing else and reports no
redraw; any other DRW raises nothing (R117). -/
def Obligations.DrawFaultsExactlyBeyondMemory : Prop :=
  ∀ (s : State) (x y : RegIx) (n : Fin 16),
    (s.Running → n.val ≥ 1 → s.i.toNat + n.val - 1 > 4095 →
      exec (.drw x y n) s = .next (WithFault s .bounds (BitVec.ofNat 16 (max s.i.toNat 4096))) ∧
      returnOf (.drw x y n) (exec (.drw x y n) s) = some .fault) ∧
    (SpriteInMemory s n → ∃ t : State, exec (.drw x y n) s = .next t ∧ t.flt = s.flt)

/-- Row count 0: no access whatever `I` holds, no cell changes, VF is cleared, a redraw is reported, `PC` advances
(R118). -/
def Obligations.DrawOfNoRows : Prop :=
  ∀ (s : State) (x y : RegIx), ∃ t : State, exec (.drw x y 0) s = .next t ∧ OnlyRegister 15 s t ∧ t.reg 15 = 0 ∧
    (s.Running → returnOf (.drw x y 0) (exec (.drw x y 0) s) = some (.done true none))

/-- Drawing the same sprite at the same place again, with nothing else writing the display between, restores every
cell; the second draw reports a collision exactly when a sprite bit lies over a cell that was off before the first. -/
def Obligations.DrawTwiceRestores : Prop :=
  ∀ (s t s2 : State) (x y x2 y2 : RegIx) (n : Fin 16),
    SpriteInMemory s n → SpriteInMemory s2 n → exec (.drw x y n) s = .next t → s2.fb = t.fb →
    (s2.reg x2).toNat % 64 = (s.reg x).toNat % 64 → (s2.reg y2).toNat % 32 = (s.reg y).toNat % 32 →
    (∀ r : Nat, r < n.val → s2.mem.read (s2.i.toNat + r) = s.mem.read (s.i.toNat + r)) →
    ∃ u : State, exec (.drw x2 y2 n) s2 = .next u ∧ u.fb = s.fb ∧
      ((∃ px py, Display.cell s.fb px py = false ∧ SpriteBit s x y n px py) → u.reg 15 = 1) ∧
      ((¬ ∃ px py, Display.cell s.fb px py = false ∧ SpriteBit s x y n px py) → u.reg 15 = 0)

/-- A completed DRW changes as many cells as its sprite has 1 bits. -/
def Obligations.DrawChangesOneCellPerSpriteBit : Prop :=
  ∀ (s t : State) (x y : RegIx) (n : Fin 16), SpriteInMemory s n → exec (.drw x y n) s = .next t →
    (Finset.univ.filter fun p : Fin 64 × Fin 32 => Display.cell t.fb p.1 p.2 ≠ Display.cell s.fb p.1 p.2).card =
    (Finset.univ.filter fun q : Fin n.val × Fin 8 =>
      (s.mem.read (s.i.toNat + q.1.val)).getLsbD (7 - q.2.val) = true).card

/-- A sprite never overlaps itself: two different sprite bits land on different cells. -/
def Obligations.SpriteBitsLandApart : Prop :=
  ∀ x0 y0 r r' c c' : Nat, r < 15 → r' < 15 → c < 8 → c' < 8 →
    columnOf x0 c = columnOf x0 c' → rowOf y0 r = rowOf y0 r' → r = r' ∧ c = c'

/-- CLS turns every cell off, writes no flag, reports no redraw and always completes (R125). -/
def Obligations.ClearTurnsEveryCellOff : Prop :=
  ∀ s : State, ∃ t : State, exec .cls s = .next t ∧ t = { s with fb := t.fb, pc := s.pc + 2 } ∧
    (∀ k : Fin 2048, Display.at t.fb k = false) ∧
    (s.Running → returnOf .cls (exec .cls s) = some (.done false none))

/-- After CLS a DRW shows the sprite alone and reports no collision. -/
def Obligations.ClearThenDrawShowsSpriteAlone : Prop :=
  ∀ (s : State) (x y : RegIx) (n : Fin 16), SpriteInMemory s n →
    ∃ t u : State, exec .cls s = .next t ∧ exec (.drw x y n) t = .next u ∧ u.reg 15 = 0 ∧
      ∀ px py, Display.cell u.fb px py = true ↔ SpriteBit s x y n px py

/-! ### BCD, block store and load -/

/-- BCD stores the three decimal digits at `I`, `I+1`, `I+2` and changes no other byte, register or cell, nor `I`;
where an address would pass 4095 it faults and stores nothing (R141, R144, R145). -/
def Obligations.BcdStoresThreeDigits : Prop :=
  ∀ (s : State) (x : RegIx), s.mem.wf = true →
    (s.i.toNat + 2 ≤ 4095 → ∃ t : State, exec (.bcd x) s = .next t ∧ t = { s with mem := t.mem, pc := s.pc + 2 } ∧
      (t.mem.read s.i.toNat).toNat = (s.reg x).toNat / 100 ∧
      (t.mem.read (s.i.toNat + 1)).toNat = (s.reg x).toNat / 10 % 10 ∧
      (t.mem.read (s.i.toNat + 2)).toNat = (s.reg x).toNat % 10 ∧
      (∀ a : Nat, a < s.i.toNat ∨ s.i.toNat + 2 < a → t.mem.read a = s.mem.read a) ∧
      (s.Running → returnOf (.bcd x) (exec (.bcd x) s) = some (.done false none))) ∧
    (s.i.toNat + 2 > 4095 → s.Running →
      exec (.bcd x) s = .next (WithFault s .bounds (BitVec.ofNat 16 (max s.i.toNat 4096))))

/-- The digit triple is the unique one in range with `100*h + 10*t + o = v`, and the packed bus and its unpacking carry
it (R142, R143). -/
def Obligations.DigitsAreTheDecimalDigits : Prop :=
  ∀ v : Byte,
    100 * (hundreds v).toNat + 10 * (tens v).toNat + (ones v).toNat = v.toNat ∧
    (hundreds v).toNat ≤ 2 ∧ (tens v).toNat ≤ 9 ∧ (ones v).toNat ≤ 9 ∧
    (∀ h t o : Nat, t ≤ 9 → o ≤ 9 → 100 * h + 10 * t + o = v.toNat →
      h = (hundreds v).toNat ∧ t = (tens v).toNat ∧ o = (ones v).toNat) ∧
    (bcd12 v).toNat = 256 * (hundreds v).toNat + 16 * (tens v).toNat + (ones v).toNat ∧
    unpack (bcd12 v) = [hundreds v, tens v, ones v]

/-- The shift-and-add-3 circuit computes the converter's bus on all 256 inputs. -/
def Obligations.DoubleDabbleComputesBcd : Prop := ∀ v : Byte, doubleDabble v = bcd12 v

/-- A block load of the three bytes a BCD wrote puts the digits in V0, V1, V2. -/
def Obligations.BlockLoadAfterBcdGivesDigits : Prop :=
  ∀ (s : State) (x : RegIx), s.mem.wf = true → s.i.toNat + 2 ≤ 4095 →
    ∃ t u : State, exec (.bcd x) s = .next t ∧ exec (.ldVxMem 2) t = .next u ∧
      (u.reg 0).toNat = (s.reg x).toNat / 100 ∧ (u.reg 1).toNat = (s.reg x).toNat / 10 % 10 ∧
      (u.reg 2).toNat = (s.reg x).toNat % 10

/-- The transfers at the block's ports account for all a command the block accepts does to the host core's state: replaying the writes of
a completed command gives its registers and memory, and a faulting command writes nothing. -/
def Obligations.PortTransfersAccountForCommand : Prop :=
  ∀ (w : Word) (i : Instr) (s : State) (r : BlockResult),
    decodeWord w = some i → blockCommand i s = some r →
    match r with
    | .done t => (blockTransfers w s).foldl (fun u p => p.apply u) s = { t with fb := s.fb } ∧
        ∃ q : BlockRsp, blockRsp w s = some q ∧ q.fault = false
    | .fault _ => (blockTransfers w s).foldl (fun u p => p.apply u) s = s ∧
        ∃ q : BlockRsp, blockRsp w s = some q ∧ q.fault = true

/-- Block store: `V[0]` to `V[x]` go to `I` to `I+x` and no other byte, register or cell changes, nor `I`; beyond memory
it faults and stores nothing (R195). -/
def Obligations.BlockStoreCopiesRegisters : Prop :=
  ∀ (s : State) (x : RegIx), s.mem.wf = true →
    (s.i.toNat + x.val ≤ 4095 → ∃ t : State, exec (.ldMemVx x) s = .next t ∧
      t = { s with mem := t.mem, pc := s.pc + 2 } ∧
      (∀ j : RegIx, j.val ≤ x.val → t.mem.read (s.i.toNat + j.val) = s.reg j) ∧
      ∀ a : Nat, a < s.i.toNat ∨ s.i.toNat + x.val < a → t.mem.read a = s.mem.read a) ∧
    (s.i.toNat + x.val > 4095 → s.Running →
      exec (.ldMemVx x) s = .next (WithFault s .bounds (BitVec.ofNat 16 (max s.i.toNat 4096))))

/-- Block load: `I` to `I+x` go to `V[0]` to `V[x]`, the registers above keep their values, and nothing else changes;
beyond memory it faults and loads nothing (R196). -/
def Obligations.BlockLoadCopiesMemory : Prop :=
  ∀ (s : State) (x : RegIx),
    (s.i.toNat + x.val ≤ 4095 → ∃ t : State, exec (.ldVxMem x) s = .next t ∧
      t = { s with v := t.v, pc := s.pc + 2 } ∧
      (∀ j : RegIx, j.val ≤ x.val → t.reg j = s.mem.read (s.i.toNat + j.val)) ∧
      ∀ j : RegIx, x.val < j.val → t.reg j = s.reg j) ∧
    (s.i.toNat + x.val > 4095 → s.Running →
      exec (.ldVxMem x) s = .next (WithFault s .bounds (BitVec.ofNat 16 (max s.i.toNat 4096))))

/-! ### Arithmetic -/

/-- The immediates, the copy and the three bitwise operations write their result to `V[x]` and write no flag: VF too
changes only as the destination (R170 to R175). -/
def Obligations.MovesAndLogicWriteOneRegister : Prop :=
  ∀ (s : State) (x y : RegIx) (kk : Byte),
    (∃ t : State, exec (.ldImm x kk) s = .next t ∧ OnlyRegister x s t ∧ t.reg x = kk) ∧
    (∃ t : State, exec (.addImm x kk) s = .next t ∧ OnlyRegister x s t ∧
      (t.reg x).toNat = ((s.reg x).toNat + kk.toNat) % 256) ∧
    (∃ t : State, exec (.ldReg x y) s = .next t ∧ OnlyRegister x s t ∧ t.reg x = s.reg y) ∧
    (∃ t : State, exec (.orReg x y) s = .next t ∧ OnlyRegister x s t ∧
      ∀ j < 8, (t.reg x).getLsbD j = ((s.reg x).getLsbD j || (s.reg y).getLsbD j)) ∧
    (∃ t : State, exec (.andReg x y) s = .next t ∧ OnlyRegister x s t ∧
      ∀ j < 8, (t.reg x).getLsbD j = ((s.reg x).getLsbD j && (s.reg y).getLsbD j)) ∧
    (∃ t : State, exec (.xorReg x y) s = .next t ∧ OnlyRegister x s t ∧
      ∀ j < 8, (t.reg x).getLsbD j = ((s.reg x).getLsbD j ^^ (s.reg y).getLsbD j))

/-- ADD, SUB and SUBN: the result modulo 256 in `V[x]`, and VF, written after it, 1 on a carry out or on no borrow
(R176, R177, R179, R181). -/
def Obligations.AddAndSubtractWithFlag : Prop :=
  ∀ (s : State) (x y : RegIx),
    (∃ t : State, exec (.addReg x y) s = .next t ∧ OnlyRegisterAndFlag x s t ∧
      (x ≠ 15 → (t.reg x).toNat = ((s.reg x).toNat + (s.reg y).toNat) % 256) ∧
      t.reg 15 = if (s.reg x).toNat + (s.reg y).toNat > 255 then 1 else 0) ∧
    (∃ t : State, exec (.subReg x y) s = .next t ∧ OnlyRegisterAndFlag x s t ∧
      (x ≠ 15 → (t.reg x).toNat = ((s.reg x).toNat + 256 - (s.reg y).toNat) % 256) ∧
      t.reg 15 = if (s.reg x).toNat ≥ (s.reg y).toNat then 1 else 0) ∧
    (∃ t : State, exec (.subnReg x y) s = .next t ∧ OnlyRegisterAndFlag x s t ∧
      (x ≠ 15 → (t.reg x).toNat = ((s.reg y).toNat + 256 - (s.reg x).toNat) % 256) ∧
      t.reg 15 = if (s.reg y).toNat ≥ (s.reg x).toNat then 1 else 0)

/-- SHR and SHL shift `V[x]` logically by one, whatever `y` names, and leave the bit shifted out in VF (R178, R180,
R181). -/
def Obligations.ShiftsWithFlag : Prop :=
  ∀ (s : State) (x y : RegIx),
    (∃ t : State, exec (.shr x y) s = .next t ∧ OnlyRegisterAndFlag x s t ∧
      (x ≠ 15 → (t.reg x).toNat = (s.reg x).toNat / 2) ∧ (t.reg 15).toNat = (s.reg x).toNat % 2) ∧
    (∃ t : State, exec (.shl x y) s = .next t ∧ OnlyRegisterAndFlag x s t ∧
      (x ≠ 15 → (t.reg x).toNat = (s.reg x).toNat * 2 % 256) ∧ (t.reg 15).toNat = (s.reg x).toNat / 128)

/-- RND: `V[x]` is the drawn byte AND `kk`, whatever byte is drawn, and no flag is written. That the byte is
`Config.randByte` of a counter which the step advances is the model's own form of the free draw (log entry 1). -/
def Obligations.RandomByteIsMasked : Prop :=
  ∀ (s : State) (x : RegIx) (kk : Byte), ∃ t : State, exec (.rnd x kk) s = .next t ∧
    t = { s with v := t.v, pc := s.pc + 2, draws := s.draws + 1 } ∧
    t.reg x = Config.randByte s.draws &&& kk ∧ ∀ j : RegIx, j ≠ x → t.reg j = s.reg j

/-! ### Control transfer -/

/-- JP and JP V0 set `PC` and nothing else; the sum of JP V0 is neither wrapped nor reduced modulo 4096 (R164, R184). -/
def Obligations.JumpsSetPcAlone : Prop :=
  ∀ (s : State) (nnn : Addr12),
    (∃ t : State, exec (.jp nnn) s = .next t ∧ t = { s with pc := t.pc } ∧ t.pc.toNat = nnn.toNat) ∧
    (∃ t : State, exec (.jpV0 nnn) s = .next t ∧ t = { s with pc := t.pc } ∧
      t.pc.toNat = (s.reg 0).toNat + nnn.toNat)

/-- CALL pushes the address of the following instruction and jumps; with all 16 slots in use it faults before any change
(R165, R222). -/
def Obligations.CallPushesReturnAddress : Prop :=
  ∀ (s : State) (nnn : Addr12),
    (s.sp.val < 16 → ∃ t : State, exec (.call nnn) s = .next t ∧
      t = { s with stack := t.stack, sp := t.sp, pc := t.pc } ∧ t.sp.val = s.sp.val + 1 ∧ t.pc.toNat = nnn.toNat ∧
      ∀ j : Fin 16, t.stack[j.val] = if j.val = s.sp.val then s.pc + 2 else s.stack[j.val]) ∧
    (s.sp.val = 16 → s.Running → exec (.call nnn) s = .next (WithFault s .stackOverflow s.pc))

/-- RET pops the return address into `PC` and leaves the slot's value; with an empty stack it faults before any change
(R163, R223). -/
def Obligations.ReturnPopsIntoPc : Prop :=
  ∀ s : State,
    (∀ j : Fin 16, s.sp.val = j.val + 1 →
      ∃ t : State, exec .ret s = .next t ∧ t = { s with sp := t.sp, pc := s.stack[j.val] } ∧ t.sp.val = j.val) ∧
    (s.sp.val = 0 → s.Running → exec .ret s = .next (WithFault s .stackUnderflow s.pc))

/-- A call followed immediately by a return restores SP and puts `PC` at the instruction after the call. -/
def Obligations.CallThenReturnComesBack : Prop :=
  ∀ (s : State) (nnn : Addr12), s.sp.val < 16 →
    ∃ t u : State, exec (.call nnn) s = .next t ∧ exec .ret t = .next u ∧
      u = { s with stack := u.stack, pc := s.pc + 2 }

/-- Sixteen nested calls from an empty stack succeed, and a seventeenth takes StackOverflow with the stack as the sixteen
left it. -/
def Obligations.SixteenCallsThenOverflow : Prop :=
  ∀ (s : State) (targets : List Addr12) (nnn : Addr12), s.Running → s.sp = 0 → targets.length = 16 →
    ∃ t : State, callAll targets s = some t ∧ t.Running ∧ t.sp = 16 ∧
      exec (.call nnn) t = .next (WithFault t .stackOverflow t.pc)

/-- The four skip-ifs advance `PC` by 4 when their condition holds and by 2 when not, and change nothing else (R166 to
R169). -/
def Obligations.SkipIfsMovePcByFourOrTwo : Prop :=
  ∀ (s : State) (x y : RegIx) (kk : Byte),
    (s.reg x = kk → exec (.seImm x kk) s = .next { s with pc := s.pc + 4 } ∧
      exec (.sneImm x kk) s = .next { s with pc := s.pc + 2 }) ∧
    (s.reg x ≠ kk → exec (.seImm x kk) s = .next { s with pc := s.pc + 2 } ∧
      exec (.sneImm x kk) s = .next { s with pc := s.pc + 4 }) ∧
    (s.reg x = s.reg y → exec (.seReg x y) s = .next { s with pc := s.pc + 4 } ∧
      exec (.sneReg x y) s = .next { s with pc := s.pc + 2 }) ∧
    (s.reg x ≠ s.reg y → exec (.seReg x y) s = .next { s with pc := s.pc + 2 } ∧
      exec (.sneReg x y) s = .next { s with pc := s.pc + 4 })

/-! ### Keys, timers, index register -/

/-- SKP and SKNP test the key `V[x]` names, for `V[x]` 0 to 15; above 15 the model refuses (R187, R188). -/
def Obligations.KeySkips : Prop :=
  ∀ (s : State) (x : RegIx),
    (∀ j : Fin 16, (s.reg x).toNat = j.val →
      exec (.skp x) s = .next { s with pc := if s.key[j.val] = true then s.pc + 4 else s.pc + 2 } ∧
      exec (.sknp x) s = .next { s with pc := if s.key[j.val] = false then s.pc + 4 else s.pc + 2 }) ∧
    ((s.reg x).toNat > 15 →
      exec (.skp x) s = .refused (.keyIndexOpen (s.reg x)) ∧ exec (.sknp x) s = .refused (.keyIndexOpen (s.reg x)))

/-- SKP and SKNP under every `KEYIDX_POLICY` (R10): for `V[x]` 0 to 15 the policy is not asked; above 15 the skip goes by
the state the policy answers, takes a bounds error, or is refused, as it says. What a policy may answer are the
candidates of decision D26; the address its bounds error records is the model's choice (log entry 19). -/
def Obligations.KeySkipsUnderEveryPolicy : Prop :=
  ∀ (P : Params) (s : State) (x : RegIx),
    ((s.reg x).toNat ≤ 15 →
      execWith P (.skp x) s = exec (.skp x) s ∧ execWith P (.sknp x) s = exec (.sknp x) s) ∧
    (∀ pressed : Bool, (s.reg x).toNat > 15 → P.keyIdx (s.reg x) s.key = .held pressed →
      execWith P (.skp x) s = .next { s with pc := if pressed = true then s.pc + 4 else s.pc + 2 } ∧
      execWith P (.sknp x) s = .next { s with pc := if pressed = false then s.pc + 4 else s.pc + 2 }) ∧
    ((s.reg x).toNat > 15 → P.keyIdx (s.reg x) s.key = .boundsError → s.Running →
      execWith P (.skp x) s = .next (WithFault s .bounds 4096) ∧
      execWith P (.sknp x) s = .next (WithFault s .bounds 4096)) ∧
    ((s.reg x).toNat > 15 → P.keyIdx (s.reg x) s.key = .refused →
      execWith P (.skp x) s = .refused (.keyIndexOpen (s.reg x)) ∧
      execWith P (.sknp x) s = .refused (.keyIndexOpen (s.reg x)))

/-- Wait for key: with no key held nothing changes and `PC` stays; with some key held the lowest index goes to `V[x]`
and `PC` advances (R192). -/
def Obligations.WaitForKeyReportsLowestHeld : Prop :=
  ∀ (s : State) (x : RegIx),
    ((∀ j : Fin 16, s.key[j.val] = false) → exec (.ldVxK x) s = .next s) ∧
    ∀ j : Fin 16, s.key[j.val] = true → (∀ k : Fin 16, k < j → s.key[k.val] = false) →
      ∃ t : State, exec (.ldVxK x) s = .next t ∧ OnlyRegister x s t ∧ (t.reg x).toNat = j.val

/-- Under every `KEYSEL` that chooses among the held keys (R10), wait-for-key reports a held key and goes on exactly when
some key is held. -/
def Obligations.WaitForKeyUnderEveryChoice : Prop :=
  ∀ P : Params,
    (∀ key : Vector Bool 16, ∀ j : Fin 16, P.keySel key = some j → key[j.val] = true) →
    (∀ key : Vector Bool 16, P.keySel key = none → ∀ j : Fin 16, key[j.val] = false) →
    ∀ (s : State) (x : RegIx),
      ((∀ j : Fin 16, s.key[j.val] = false) ∧ execWith P (.ldVxK x) s = .next s) ∨
      ∃ (j : Fin 16) (t : State), s.key[j.val] = true ∧ execWith P (.ldVxK x) s = .next t ∧
        (t.reg x).toNat = j.val ∧ OnlyRegister x s t

/-- The timer moves (R189, R190, R191). -/
def Obligations.TimerMoves : Prop :=
  ∀ (s : State) (x : RegIx),
    (∃ t : State, exec (.ldVxDt x) s = .next t ∧ OnlyRegister x s t ∧ t.reg x = s.dt) ∧
    exec (.ldDtVx x) s = .next { s with dt := s.reg x, pc := s.pc + 2 } ∧
    exec (.ldStVx x) s = .next { s with st := s.reg x, pc := s.pc + 2 }

/-- Set index, add to index and font address write `I` and no flag (R183, R193, R194). -/
def Obligations.IndexWrites : Prop :=
  ∀ (s : State) (x : RegIx) (nnn : Addr12),
    (∃ t : State, exec (.ldI nnn) s = .next t ∧ t = { s with i := t.i, pc := s.pc + 2 } ∧ t.i.toNat = nnn.toNat) ∧
    (∃ t : State, exec (.addI x) s = .next t ∧ t = { s with i := t.i, pc := s.pc + 2 } ∧
      t.i.toNat = (s.i.toNat + (s.reg x).toNat) % 65536) ∧
    (∃ t : State, exec (.ldF x) s = .next t ∧ t = { s with i := t.i, pc := s.pc + 2 } ∧
      t.i.toNat = 5 * (s.reg x).toNat)

/-! ### The host environment -/

/-- `loadProgram` (R198): the bytes from 0x200 on, `PC` 0x200, nothing else; over 3584 bytes it is rejected. -/
def Obligations.LoadProgramCopiesBytes : Prop :=
  ∀ (s : State) (bytes : List Byte), s.mem.wf = true →
    (bytes.length ≤ 3584 → ∃ t : State, applyHostCall (.loadProgram bytes) s = .ok t ∧
      t = { s with mem := t.mem, pc := 0x200 } ∧
      (∀ j (h : j < bytes.length), t.mem.read (0x200 + j) = bytes[j]) ∧
      ∀ a : Nat, a < 0x200 ∨ 0x200 + bytes.length ≤ a → t.mem.read a = s.mem.read a) ∧
    (bytes.length > 3584 → applyHostCall (.loadProgram bytes) s = .oversizedLoad)

/-- `tickTimers` counts both timers down by 1, not below 0, and touches nothing else (R199). -/
def Obligations.TickTimersClampAtZero : Prop :=
  ∀ s : State, ∃ t : State, applyHostCall .tickTimers s = .ok t ∧ t = { s with dt := t.dt, st := t.st } ∧
    t.dt.toNat = s.dt.toNat - 1 ∧ t.st.toNat = s.st.toNat - 1

/-- `setKey` sets one key state and nothing else; an index above 15 is refused (R200). -/
def Obligations.SetKeySetsOneKey : Prop :=
  ∀ (s : State) (index : Nat) (pressed : Bool),
    (index < 16 → ∃ t : State, applyHostCall (.setKey index pressed) s = .ok t ∧ t = { s with key := t.key } ∧
      ∀ j : Fin 16, t.key[j.val] = if j.val = index then pressed else s.key[j.val]) ∧
    (16 ≤ index → applyHostCall (.setKey index pressed) s = .refusedIndex)

/-- What the host environment reads: cell `x + y·64` of the display at column `x`, row `y`; the sound timer; and `FLT` as
18 bits (R20, R202, R35). -/
def Obligations.HostReads : Prop :=
  ∀ s : State,
    (∀ (px : Fin 64) (py : Fin 32), (getDisplay s)[px.val + 64 * py.val]'(by omega) = Display.cell s.fb px py) ∧
    getSoundLevel s = s.st ∧
    (faultPort s).toNat = s.flt.addr.toNat + 65536 *
      match s.flt.kind with
      | .none => 0
      | .bounds => 1
      | .stackOverflow => 2
      | .stackUnderflow => 3

/-- The host environment's sequence to start a program (R262, without a font): the reset state with the bytes in place
and `PC` at 0x200. -/
def Obligations.BootStartsProgramFromReset : Prop :=
  ∀ bytes : List Byte, bytes.length ≤ 3584 → ∃ t : State, boot none bytes = .ok t ∧
    t = { State.reset with mem := t.mem, pc := 0x200 } ∧ t.Running ∧
    (∀ j (h : j < bytes.length), t.mem.read (0x200 + j) = bytes[j]) ∧
    ∀ a : Nat, a < 0x200 ∨ 0x200 + bytes.length ≤ a → t.mem.read a = 0
end

