-- ==== Sys2Proof/Laws/Decode.lean ====
section
/-! SUPPORT. The arithmetic of instruction words: what the layouts hold and what the field readers read. -/

namespace Sys2Proof

theorem nibble_val (w : Word) (j : Nat) : (nibble w j).val = w.toNat / 16 ^ j % 16 := rfl

/-! ### Operand bits: where they lie in the word -/

theorem layoutX_fits (x : RegIx) : layoutX x < 4096 ∧ layoutX x % 256 = 0 := by
  unfold layoutX; omega

theorem layoutXY_fits (x y : RegIx) : layoutXY x y < 4096 ∧ layoutXY x y % 16 = 0 := by
  unfold layoutXY; omega

theorem layoutXYN_lt (x y : RegIx) (n : Fin 16) : layoutXYN x y n < 4096 := by
  unfold layoutXYN; omega

theorem layoutXKK_lt (x : RegIx) (kk : Byte) : layoutXKK x kk < 4096 := by
  have := kk.isLt
  unfold layoutXKK; omega

theorem layoutNNN_lt (nnn : Addr12) : layoutNNN nnn < 4096 := nnn.isLt

/-- A row's word is its pattern with the operand bits beside it. -/
theorem OpRow.word_toNat {r : OpRow} {bits : Nat} (h : r.pattern + bits < 65536) :
    (r.word bits).toNat = r.pattern + bits := by
  rw [OpRow.word, BitVec.toNat_ofNat, Nat.mod_eq_of_lt h]

theorem fieldX_eq_of_toNat {w : Word} {x : RegIx} (h : w.toNat / 256 % 16 = x.val) : fieldX w = x :=
  Fin.ext (by simpa [fieldX, nibble_val] using h)

theorem fieldY_eq_of_toNat {w : Word} {y : RegIx} (h : w.toNat / 16 % 16 = y.val) : fieldY w = y :=
  Fin.ext (by simpa [fieldY, nibble_val] using h)

theorem fieldN_eq_of_toNat {w : Word} {n : Fin 16} (h : w.toNat % 16 = n.val) : fieldN w = n :=
  Fin.ext (by simpa [fieldN, nibble_val] using h)

theorem fieldKK_eq_of_toNat {w : Word} {kk : Byte} (h : w.toNat % 256 = kk.toNat) : fieldKK w = kk :=
  BitVec.eq_of_toNat_eq (by simpa [fieldKK] using h)

theorem fieldNNN_eq_of_toNat {w : Word} {nnn : Addr12} (h : w.toNat % 4096 = nnn.toNat) : fieldNNN w = nnn :=
  BitVec.eq_of_toNat_eq (by simpa [fieldNNN] using h)

/-- The word two bytes make (R52, R80). -/
theorem wordOfBytes_toNat (b0 b1 : Byte) : (wordOfBytes b0 b1).toNat = b0.toNat * 256 + b1.toNat := by
  have := b1.isLt
  rw [wordOfBytes, BitVec.toNat_append, Nat.shiftLeft_eq, Nat.mul_comm, ← Nat.two_pow_add_eq_or_of_lt this]

/-- The bytes of a word make the word again. -/
theorem wordOfBytes_bytesOfWord (w : Word) :
    wordOfBytes (BitVec.ofNat 8 (w.toNat / 256)) (BitVec.ofNat 8 w.toNat) = w := by
  apply BitVec.eq_of_toNat_eq
  have := w.isLt
  rw [wordOfBytes_toNat, BitVec.toNat_ofNat, BitVec.toNat_ofNat]; omega

end Sys2Proof
end

