-- ==== Sys2Proof/Laws/Memory.lean ====
section
/-! SUPPORT. Memory: a read after a write, everything else unchanged, and the canonical form kept by every operation. -/

namespace Sys2Proof.Machine

@[simp] theorem Memory.read_nil (a : Nat) : Memory.read [] a = 0 := rfl

theorem Memory.read_cons (k : Nat) (b : Byte) (rest : Memory) (a : Nat) :
    Memory.read ((k, b) :: rest) a = if k = a then b else Memory.read rest a := rfl

theorem Memory.wfFrom_cons (lo k : Nat) (b : Byte) (rest : Memory) :
    Memory.wfFrom lo ((k, b) :: rest) = true ↔ lo ≤ k ∧ k < 4096 ∧ b ≠ 0 ∧ Memory.wfFrom (k + 1) rest = true := by
  simp only [Memory.wfFrom, Bool.and_eq_true, decide_eq_true_eq, bne_iff_ne, and_assoc]

/-- Below its first address a canonical memory reads 0. -/
theorem Memory.read_of_lt {m : Memory} {lo a : Nat} (h : m.wfFrom lo = true) (ha : a < lo) : m.read a = 0 := by
  induction m generalizing lo with
  | nil => rfl
  | cons c rest ih =>
    obtain ⟨k, b⟩ := c
    rw [Memory.wfFrom_cons] at h
    rw [Memory.read, if_neg (by omega)]
    exact ih h.2.2.2 (by omega)

theorem Memory.wfFrom_mono {m : Memory} {lo lo' : Nat} (h : m.wfFrom lo = true) (hle : lo' ≤ lo) :
    m.wfFrom lo' = true := by
  cases m with
  | nil => rfl
  | cons c rest =>
    obtain ⟨k, b⟩ := c
    rw [Memory.wfFrom_cons] at h ⊢
    exact ⟨by omega, h.2⟩

theorem Memory.wfFrom_write {m : Memory} {lo a : Nat} (b : Byte) (h : m.wfFrom lo = true) (hlo : lo ≤ a)
    (ha : a < 4096) : (m.write a b).wfFrom lo = true := by
  induction m generalizing lo with
  | nil =>
    by_cases hb : b = 0
    · rw [Memory.write, if_pos hb]; rfl
    · rw [Memory.write, if_neg hb, Memory.wfFrom_cons]; exact ⟨hlo, ha, hb, rfl⟩
  | cons c rest ih =>
    obtain ⟨k, c⟩ := c
    rw [Memory.wfFrom_cons] at h
    obtain ⟨hk, hk', hc, hr⟩ := h
    simp only [Memory.write]
    split_ifs with h1 h2 h2 h3
    · rw [Memory.wfFrom_cons]; exact ⟨hk, hk', hc, hr⟩
    · rw [Memory.wfFrom_cons, Memory.wfFrom_cons]; exact ⟨hlo, ha, h2, by omega, hk', hc, hr⟩
    · exact Memory.wfFrom_mono hr (by omega)
    · subst h2; rw [Memory.wfFrom_cons]; exact ⟨hlo, ha, h3, hr⟩
    · rw [Memory.wfFrom_cons]; exact ⟨hk, hk', hc, ih hr (by omega)⟩

/-- Every write inside `MEM[0..4095]` keeps the canonical form. -/
theorem Memory.wf_write {m : Memory} {a : Nat} (b : Byte) (h : m.wf = true) (ha : a < 4096) :
    (m.write a b).wf = true :=
  Memory.wfFrom_write b h (Nat.zero_le a) ha

theorem Memory.wf_nil : Memory.wf [] = true := rfl

theorem Memory.read_write_from {m : Memory} {lo : Nat} (h : m.wfFrom lo = true) (a : Nat) (b : Byte) (x : Nat) :
    (m.write a b).read x = if x = a then b else m.read x := by
  induction m generalizing lo with
  | nil =>
    by_cases hb : b = 0
    · rw [Memory.write, if_pos hb, hb]; split_ifs <;> rfl
    · rw [Memory.write, if_neg hb]
      by_cases hx : x = a
      · subst hx; rw [if_pos rfl, Memory.read_cons, if_pos rfl]
      · rw [if_neg hx, Memory.read_cons, if_neg (Ne.symm hx)]
  | cons c rest ih =>
    obtain ⟨k, c⟩ := c
    rw [Memory.wfFrom_cons] at h
    obtain ⟨-, -, -, hr⟩ := h
    have below : ∀ y, y ≤ k → Memory.read rest y = 0 := fun y hy => Memory.read_of_lt hr (by omega)
    simp only [Memory.write]
    by_cases hx : x = a
    · subst hx
      rw [if_pos rfl]
      split_ifs with h1 hb h2 hb
      · rw [Memory.read_cons, if_neg (by omega), below x (by omega), hb]
      · rw [Memory.read_cons, if_pos rfl]
      · rw [below x (by omega), hb]
      · rw [Memory.read_cons, if_pos rfl]
      · rw [Memory.read_cons, if_neg (by omega), ih hr, if_pos rfl]
    · rw [if_neg hx]
      split_ifs with h1 hb h2 hb
      · rfl
      · rw [Memory.read_cons, if_neg (Ne.symm hx)]
      · rw [Memory.read_cons, if_neg (by omega)]
      · rw [Memory.read_cons, Memory.read_cons, if_neg (Ne.symm hx), if_neg (by omega)]
      · rw [Memory.read_cons, Memory.read_cons, ih hr, if_neg hx]

/-- A read after a write to the same address gives the byte written (R58). -/
theorem Memory.read_write_same {m : Memory} (h : m.wf = true) (a : Nat) (b : Byte) : (m.write a b).read a = b := by
  rw [Memory.read_write_from h, if_pos rfl]

/-- A write changes no other byte (R58). -/
theorem Memory.read_write_ne {m : Memory} (h : m.wf = true) {a x : Nat} (b : Byte) (hx : x ≠ a) :
    (m.write a b).read x = m.read x := by
  rw [Memory.read_write_from h, if_neg hx]

@[simp] theorem Memory.readBytes_length (m : Memory) (base count : Nat) : (m.readBytes base count).length = count := by
  induction count generalizing base with
  | zero => rfl
  | succ n ih => simp [Memory.readBytes, ih]

theorem Memory.readBytes_getElem (m : Memory) (base count : Nat) {j : Nat} (h : j < (m.readBytes base count).length) :
    (m.readBytes base count)[j] = m.read (base + j) := by
  induction count generalizing base j with
  | zero => simp [Memory.readBytes] at h
  | succ n ih =>
    cases j with
    | zero => rfl
    | succ j =>
      simp only [Memory.readBytes, List.getElem_cons_succ]
      rw [ih]; congr 1; omega

theorem Memory.wf_writeBytes {m : Memory} {base : Nat} (bytes : List Byte) (h : m.wf = true)
    (hb : base + bytes.length ≤ 4096) : (m.writeBytes base bytes).wf = true := by
  induction bytes generalizing m base with
  | nil => exact h
  | cons b bytes ih =>
    simp only [List.length_cons] at hb
    exact ih (Memory.wf_write b h (by omega)) (by omega)

/-- What a run of bytes stored from `base` on does to every address. -/
theorem Memory.read_writeBytes {m : Memory} {base : Nat} (bytes : List Byte) (h : m.wf = true)
    (hb : base + bytes.length ≤ 4096) (x : Nat) :
    (m.writeBytes base bytes).read x =
      if hx : base ≤ x ∧ x - base < bytes.length then bytes[x - base]'hx.2 else m.read x := by
  induction bytes generalizing m base with
  | nil => simp [Memory.writeBytes]
  | cons b bytes ih =>
    simp only [List.length_cons] at hb
    rw [Memory.writeBytes, ih (Memory.wf_write b h (by omega)) (by omega)]
    by_cases h0 : x = base
    · subst h0
      simp [Memory.read_write_same h]
    · by_cases h1 : base + 1 ≤ x ∧ x - (base + 1) < bytes.length
      · have h2 : base ≤ x ∧ x - base < (b :: bytes).length := by simp; omega
        rw [dif_pos h1, dif_pos h2]
        have : x - base = x - (base + 1) + 1 := by omega
        simp [this]
      · have h2 : ¬(base ≤ x ∧ x - base < (b :: bytes).length) := by simp; omega
        rw [dif_neg h1, dif_neg h2, Memory.read_write_ne h b h0]

end Sys2Proof.Machine
end

