-- ==== Sys2Proof/Laws/State.lean ====
section
/-! SUPPORT. One lemma per field and update of State, so that no proof unfolds a record update. -/

namespace Sys2Proof.Machine

/-! ### `State.setReg` -/

@[simp] theorem State.setReg_fb (s : State) (x : RegIx) (b : Byte) : (s.setReg x b).fb = s.fb := rfl

@[simp] theorem State.setReg_v (s : State) (x : RegIx) (b : Byte) :
    (s.setReg x b).v = s.v.set x.val b := rfl

@[simp] theorem State.setReg_i (s : State) (x : RegIx) (b : Byte) : (s.setReg x b).i = s.i := rfl

@[simp] theorem State.setReg_pc (s : State) (x : RegIx) (b : Byte) : (s.setReg x b).pc = s.pc := rfl

@[simp] theorem State.setReg_mem (s : State) (x : RegIx) (b : Byte) : (s.setReg x b).mem = s.mem := rfl

@[simp] theorem State.setReg_stack (s : State) (x : RegIx) (b : Byte) : (s.setReg x b).stack = s.stack := rfl

@[simp] theorem State.setReg_sp (s : State) (x : RegIx) (b : Byte) : (s.setReg x b).sp = s.sp := rfl

@[simp] theorem State.setReg_dt (s : State) (x : RegIx) (b : Byte) : (s.setReg x b).dt = s.dt := rfl

@[simp] theorem State.setReg_st (s : State) (x : RegIx) (b : Byte) : (s.setReg x b).st = s.st := rfl

@[simp] theorem State.setReg_key (s : State) (x : RegIx) (b : Byte) : (s.setReg x b).key = s.key := rfl

@[simp] theorem State.setReg_flt (s : State) (x : RegIx) (b : Byte) : (s.setReg x b).flt = s.flt := rfl

@[simp] theorem State.setReg_draws (s : State) (x : RegIx) (b : Byte) : (s.setReg x b).draws = s.draws := rfl

/-! ### `State.advance` -/

@[simp] theorem State.advance_fb (s : State) : (s.advance).fb = s.fb := rfl

@[simp] theorem State.advance_v (s : State) : (s.advance).v = s.v := rfl

@[simp] theorem State.advance_i (s : State) : (s.advance).i = s.i := rfl

@[simp] theorem State.advance_pc (s : State) :
    (s.advance).pc = s.pc + 2 := rfl

@[simp] theorem State.advance_mem (s : State) : (s.advance).mem = s.mem := rfl

@[simp] theorem State.advance_stack (s : State) : (s.advance).stack = s.stack := rfl

@[simp] theorem State.advance_sp (s : State) : (s.advance).sp = s.sp := rfl

@[simp] theorem State.advance_dt (s : State) : (s.advance).dt = s.dt := rfl

@[simp] theorem State.advance_st (s : State) : (s.advance).st = s.st := rfl

@[simp] theorem State.advance_key (s : State) : (s.advance).key = s.key := rfl

@[simp] theorem State.advance_flt (s : State) : (s.advance).flt = s.flt := rfl

@[simp] theorem State.advance_draws (s : State) : (s.advance).draws = s.draws := rfl

/-! ### `State.skipIf` -/

@[simp] theorem State.skipIf_fb (s : State) (c : Bool) : (s.skipIf c).fb = s.fb := rfl

@[simp] theorem State.skipIf_v (s : State) (c : Bool) : (s.skipIf c).v = s.v := rfl

@[simp] theorem State.skipIf_i (s : State) (c : Bool) : (s.skipIf c).i = s.i := rfl

@[simp] theorem State.skipIf_pc (s : State) (c : Bool) :
    (s.skipIf c).pc = (if c then s.pc + 4 else s.pc + 2) := rfl

@[simp] theorem State.skipIf_mem (s : State) (c : Bool) : (s.skipIf c).mem = s.mem := rfl

@[simp] theorem State.skipIf_stack (s : State) (c : Bool) : (s.skipIf c).stack = s.stack := rfl

@[simp] theorem State.skipIf_sp (s : State) (c : Bool) : (s.skipIf c).sp = s.sp := rfl

@[simp] theorem State.skipIf_dt (s : State) (c : Bool) : (s.skipIf c).dt = s.dt := rfl

@[simp] theorem State.skipIf_st (s : State) (c : Bool) : (s.skipIf c).st = s.st := rfl

@[simp] theorem State.skipIf_key (s : State) (c : Bool) : (s.skipIf c).key = s.key := rfl

@[simp] theorem State.skipIf_flt (s : State) (c : Bool) : (s.skipIf c).flt = s.flt := rfl

@[simp] theorem State.skipIf_draws (s : State) (c : Bool) : (s.skipIf c).draws = s.draws := rfl

/-! ### `State.setResultFlag` -/

@[simp] theorem State.setResultFlag_fb (s : State) (x : RegIx) (b : Byte) (f : Bool) : (s.setResultFlag x b f).fb = s.fb := rfl

@[simp] theorem State.setResultFlag_v (s : State) (x : RegIx) (b : Byte) (f : Bool) :
    (s.setResultFlag x b f).v = (s.v.set x.val b).set vf.val (flagByte f) := rfl

@[simp] theorem State.setResultFlag_i (s : State) (x : RegIx) (b : Byte) (f : Bool) : (s.setResultFlag x b f).i = s.i := rfl

@[simp] theorem State.setResultFlag_pc (s : State) (x : RegIx) (b : Byte) (f : Bool) : (s.setResultFlag x b f).pc = s.pc := rfl

@[simp] theorem State.setResultFlag_mem (s : State) (x : RegIx) (b : Byte) (f : Bool) : (s.setResultFlag x b f).mem = s.mem := rfl

@[simp] theorem State.setResultFlag_stack (s : State) (x : RegIx) (b : Byte) (f : Bool) : (s.setResultFlag x b f).stack = s.stack := rfl

@[simp] theorem State.setResultFlag_sp (s : State) (x : RegIx) (b : Byte) (f : Bool) : (s.setResultFlag x b f).sp = s.sp := rfl

@[simp] theorem State.setResultFlag_dt (s : State) (x : RegIx) (b : Byte) (f : Bool) : (s.setResultFlag x b f).dt = s.dt := rfl

@[simp] theorem State.setResultFlag_st (s : State) (x : RegIx) (b : Byte) (f : Bool) : (s.setResultFlag x b f).st = s.st := rfl

@[simp] theorem State.setResultFlag_key (s : State) (x : RegIx) (b : Byte) (f : Bool) : (s.setResultFlag x b f).key = s.key := rfl

@[simp] theorem State.setResultFlag_flt (s : State) (x : RegIx) (b : Byte) (f : Bool) : (s.setResultFlag x b f).flt = s.flt := rfl

@[simp] theorem State.setResultFlag_draws (s : State) (x : RegIx) (b : Byte) (f : Bool) : (s.setResultFlag x b f).draws = s.draws := rfl

/-! ### `State.raise`: only `FLT` can change -/

@[simp] theorem State.raise_fb (s : State) (t : Trap) : (s.raise t).fb = s.fb := by
  unfold State.raise; split <;> rfl

@[simp] theorem State.raise_v (s : State) (t : Trap) : (s.raise t).v = s.v := by
  unfold State.raise; split <;> rfl

@[simp] theorem State.raise_i (s : State) (t : Trap) : (s.raise t).i = s.i := by
  unfold State.raise; split <;> rfl

@[simp] theorem State.raise_pc (s : State) (t : Trap) : (s.raise t).pc = s.pc := by
  unfold State.raise; split <;> rfl

@[simp] theorem State.raise_mem (s : State) (t : Trap) : (s.raise t).mem = s.mem := by
  unfold State.raise; split <;> rfl

@[simp] theorem State.raise_stack (s : State) (t : Trap) : (s.raise t).stack = s.stack := by
  unfold State.raise; split <;> rfl

@[simp] theorem State.raise_sp (s : State) (t : Trap) : (s.raise t).sp = s.sp := by
  unfold State.raise; split <;> rfl

@[simp] theorem State.raise_dt (s : State) (t : Trap) : (s.raise t).dt = s.dt := by
  unfold State.raise; split <;> rfl

@[simp] theorem State.raise_st (s : State) (t : Trap) : (s.raise t).st = s.st := by
  unfold State.raise; split <;> rfl

@[simp] theorem State.raise_key (s : State) (t : Trap) : (s.raise t).key = s.key := by
  unfold State.raise; split <;> rfl

@[simp] theorem State.raise_draws (s : State) (t : Trap) : (s.raise t).draws = s.draws := by
  unfold State.raise; split <;> rfl

theorem State.raise_of_running {s : State} (h : s.flt.kind = .none) (t : Trap) :
    s.raise t = { s with flt := t.record s.pc } := if_pos h

theorem State.raise_of_latched {s : State} (h : s.flt.kind ≠ .none) (t : Trap) : s.raise t = s := if_neg h

theorem State.raise_flt_of_running {s : State} (h : s.flt.kind = .none) (t : Trap) :
    (s.raise t).flt = t.record s.pc := by rw [State.raise_of_running h]

@[simp] theorem Trap.record_kind_ne_none (t : Trap) (pc : Word) : (t.record pc).kind ≠ .none := by
  cases t <;> simp [Trap.record]

/-! ### Reading registers -/

theorem State.reg_def (s : State) (x : RegIx) : s.reg x = s.v[x.val] := rfl

@[simp] theorem State.reg_setReg_same (s : State) (x : RegIx) (b : Byte) : (s.setReg x b).reg x = b := by
  simp [State.reg]

theorem State.reg_setReg_ne (s : State) {x y : RegIx} (b : Byte) (h : x ≠ y) : (s.setReg x b).reg y = s.reg y := by
  simp [State.reg, Vector.getElem_set_ne _ _ (fun e => h (Fin.ext e))]

@[simp] theorem State.reg_advance (s : State) (x : RegIx) : s.advance.reg x = s.reg x := rfl

@[simp] theorem State.reg_skipIf (s : State) (c : Bool) (x : RegIx) : (s.skipIf c).reg x = s.reg x := rfl

@[simp] theorem State.reg_raise (s : State) (t : Trap) (x : RegIx) : (s.raise t).reg x = s.reg x := by
  simp [State.reg]

/-- The flag is written last, so VF holds it whatever `x` is (R181). -/
@[simp] theorem State.reg_setResultFlag_vf (s : State) (x : RegIx) (b : Byte) (f : Bool) :
    (s.setResultFlag x b f).reg vf = flagByte f := by
  simp [State.setResultFlag]

theorem State.reg_setResultFlag_same (s : State) {x : RegIx} (b : Byte) (f : Bool) (h : x ≠ vf) :
    (s.setResultFlag x b f).reg x = b := by
  rw [State.setResultFlag, State.reg_setReg_ne _ _ (Ne.symm h), State.reg_setReg_same]

theorem State.reg_setResultFlag_ne (s : State) {x y : RegIx} (b : Byte) (f : Bool) (hx : x ≠ y) (hy : y ≠ vf) :
    (s.setResultFlag x b f).reg y = s.reg y := by
  rw [State.setResultFlag, State.reg_setReg_ne _ _ (Ne.symm hy), State.reg_setReg_ne _ _ hx]

/-! ### Flags -/

@[simp] theorem flagByte_true : flagByte true = 1 := rfl

@[simp] theorem flagByte_false : flagByte false = 0 := rfl

theorem flagByte_eq_one_iff (c : Bool) : flagByte c = 1 ↔ c = true := by cases c <;> decide

end Sys2Proof.Machine
end

