-- ==== Sys2Proof/Laws/Ops.lean ====
section
/-! SUPPORT. What each shared operation can do, said once: bounds, the call stack, how a block command ends, keys. -/

namespace Sys2Proof.Machine

/-! ### Bounds -/

theorem fits_iff (base count : Nat) : fits base count = true ↔ count = 0 ∨ base + count ≤ 4096 := by
  simp only [fits, Bool.or_eq_true, beq_iff_eq, decide_eq_true_eq]; omega

theorem fits_false_iff (base count : Nat) : fits base count = false ↔ 0 < count ∧ 4096 < base + count := by
  rw [← Bool.not_eq_true, fits_iff]; omega

@[simp] theorem fits_zero (base : Nat) : fits base 0 = true := rfl

theorem firstOutside_ge (base : Nat) : 4096 ≤ firstOutside base := Nat.le_max_right _ _

/-- The address a Bounds fault records is above 4095 when its base is a 16-bit value (R221). -/
theorem record_bounds_addr {base : Nat} (h : base < 65536) (pc : Word) :
    ((Trap.bounds (firstOutside base)).record pc).addr.toNat = max base 4096 := by
  simp only [Trap.record, firstOutside, BitVec.toNat_ofNat]; omega

/-! ### Call stack -/

theorem State.push_of_lt {s : State} (a : Word) (h : s.sp.val < 16) :
    s.push a = some { s with stack := s.stack.set s.sp.val a, sp := ⟨s.sp.val + 1, by omega⟩ } := dif_pos h

theorem State.push_of_full {s : State} (a : Word) (h : s.sp = 16) : s.push a = none :=
  dif_neg (by rw [h]; decide)

theorem State.pop_of_pos {s : State} (h : 0 < s.sp.val) :
    s.pop = some (s.stack[s.sp.val - 1], { s with sp := ⟨s.sp.val - 1, by omega⟩ }) := dif_pos h

theorem State.pop_of_empty {s : State} (h : s.sp = 0) : s.pop = none :=
  dif_neg (by rw [h]; decide)

/-- A push changes the stack and SP alone. -/
theorem State.push_eq_some {s t : State} {a : Word} (h : s.push a = some t) :
    s.sp.val < 16 ∧ t = { s with stack := t.stack, sp := t.sp } := by
  unfold State.push at h
  split at h
  · cases h; exact ⟨‹_›, rfl⟩
  · cases h

/-- A pop changes SP alone. -/
theorem State.pop_eq_some {s t : State} {a : Word} (h : s.pop = some (a, t)) :
    0 < s.sp.val ∧ t = { s with sp := t.sp } := by
  unfold State.pop at h
  split at h
  · cases h; exact ⟨‹_›, rfl⟩
  · cases h

/-! ### How a block command ends -/

@[simp] theorem completeCommand_done (s t : State) : completeCommand s (.done t) = .next t.advance := rfl

@[simp] theorem completeCommand_fault (s : State) (t : Trap) : completeCommand s (.fault t) = .next (s.raise t) := rfl

/-- A block command always gives a next state: its own with `PC` advanced, or the fault taken. -/
theorem completeCommand_cases {s t : State} {r : BlockResult} (h : completeCommand s r = .next t) :
    (∃ u, r = .done u ∧ t = u.advance) ∨ ∃ e, r = .fault e ∧ t = s.raise e := by
  cases r with
  | done u => simp only [completeCommand_done, Host.Outcome.next.injEq] at h; exact .inl ⟨u, rfl, h.symm⟩
  | fault e => simp only [completeCommand_fault, Host.Outcome.next.injEq] at h; exact .inr ⟨e, rfl, h.symm⟩

/-! ### Keys -/

theorem State.keyState_of_lt (policy : Config.KeyPolicy) {s : State} {b : Byte} (h : b.toNat < 16) :
    s.keyState policy b = .held s.key[b.toNat] := dif_pos h

theorem State.keyState_of_ge (policy : Config.KeyPolicy) {s : State} {b : Byte} (h : 16 ≤ b.toNat) :
    s.keyState policy b = policy b s.key := dif_neg (by omega)

/-- The key reported is held, and no key below it is (R192). -/
theorem lowestHeld_eq_some {key : Vector Bool 16} {j : Fin 16} (h : lowestHeld key = some j) :
    key[j.val] = true := by
  unfold lowestHeld at h
  simpa using List.find?_some h

theorem lowestHeld_eq_none_iff {key : Vector Bool 16} :
    lowestHeld key = none ↔ ∀ j : Fin 16, key[j.val] = false := by
  simp [lowestHeld, List.find?_eq_none]

end Sys2Proof.Machine
end

