-- ==== Sys2Proof/Laws/Display.lean ====
section
/-! SUPPORT. The display: reading a cell after a toggle, and what one sprite bit does. -/

namespace Sys2Proof.Machine

/-- A toggle flips its own cell and no other (R112, R120). -/
theorem Display.cell_toggle (fb : Display) (px qx : Fin 64) (py qy : Fin 32) :
    Display.cell (Display.toggle fb px py) qx qy =
      (Display.cell fb qx qy ^^ (decide (qx = px) && decide (qy = py))) := by
  simp only [Display.cell, Display.toggle, Vector.getElem_set]
  by_cases hy : py.val = qy.val
  · have hy' : qy = py := Fin.ext hy.symm
    subst hy'
    simp only [if_true, BitVec.getLsbD_xor, BitVec.getLsbD_twoPow, decide_true, Bool.and_true]
    congr 1
    by_cases hx : qx = px
    · subst hx; simp
    · have : px.val ≠ qx.val := fun e => hx (Fin.ext e.symm)
      simp [hx, this]
  · have : qy ≠ py := fun e => hy (congrArg Fin.val e.symm)
    simp [hy, this]

@[simp] theorem Display.cell_clear (px : Fin 64) (py : Fin 32) : Display.cell Display.clear px py = false := by
  simp [Display.cell, Display.clear]

/-- Two displays with the same cells are the same. -/
theorem Display.ext_cells {fb fb' : Display} (h : ∀ px py, Display.cell fb px py = Display.cell fb' px py) :
    fb = fb' := by
  refine Vector.ext fun j hj => ?_
  refine BitVec.eq_of_getLsbD_eq fun k hk => ?_
  exact h ⟨k, hk⟩ ⟨j, hj⟩

theorem drawBit_zero {x0 y0 r c : Nat} {row : Byte} {acc : Blit} (h : row.getLsbD (7 - c) = false) :
    drawBit x0 y0 r row acc c = acc := by simp [drawBit, h]

theorem drawBit_one {x0 y0 r c : Nat} {row : Byte} {acc : Blit} (h : row.getLsbD (7 - c) = true) :
    drawBit x0 y0 r row acc c =
      { fb := Display.toggle acc.fb (columnOf x0 c) (rowOf y0 r)
        coll := acc.coll || Display.cell acc.fb (columnOf x0 c) (rowOf y0 r) } := by simp [drawBit, h]

/-- Column offsets below 8 land on different columns (R122). -/
theorem columnOf_inj {x0 c c' : Nat} (h : c < 8) (h' : c' < 8) : columnOf x0 c = columnOf x0 c' ↔ c = c' := by
  constructor
  · intro e
    have := congrArg Fin.val e
    simp only [columnOf, Fin.ofNat] at this
    omega
  · rintro rfl; rfl

/-- Every cell after any list of different bits of one sprite row. -/
theorem drawBits_cell (x0 y0 r : Nat) (row : Byte) (cs : List Nat) (hn : cs.Nodup) (h8 : ∀ c ∈ cs, c < 8) (acc : Blit)
    (px : Fin 64) (py : Fin 32) :
    Display.cell (cs.foldl (drawBit x0 y0 r row) acc).fb px py =
      (Display.cell acc.fb px py ^^
        (decide (py = rowOf y0 r) && cs.any fun c => row.getLsbD (7 - c) && decide (px = columnOf x0 c))) := by
  induction cs generalizing acc with
  | nil => simp
  | cons c cs ih =>
    obtain ⟨hc, hn'⟩ := List.nodup_cons.1 hn
    rw [List.foldl_cons, ih hn' fun d hd => h8 d (List.mem_cons_of_mem _ hd), List.any_cons]
    cases hb : row.getLsbD (7 - c) with
    | false => rw [drawBit_zero hb]; simp
    | true =>
      rw [drawBit_one hb, Display.cell_toggle]
      by_cases hp : px = columnOf x0 c
      · have hno : (cs.any fun d => row.getLsbD (7 - d) && decide (px = columnOf x0 d)) = false := by
          rw [List.any_eq_false]
          intro d hd hbad
          simp only [Bool.and_eq_true, decide_eq_true_eq] at hbad
          have : c = d := (columnOf_inj (h8 c (by simp)) (h8 d (by simp [hd]))).1 (hp.symm.trans hbad.2)
          exact hc (this ▸ hd)
        rw [hno]; simp [hp]
      · simp [hp]

/-- The collision value after them: a bit of the row never collides with another of it (R122). -/
theorem drawBits_coll (x0 y0 r : Nat) (row : Byte) (cs : List Nat) (hn : cs.Nodup) (h8 : ∀ c ∈ cs, c < 8) (acc : Blit) :
    (cs.foldl (drawBit x0 y0 r row) acc).coll =
      (acc.coll || cs.any fun c => row.getLsbD (7 - c) && Display.cell acc.fb (columnOf x0 c) (rowOf y0 r)) := by
  induction cs generalizing acc with
  | nil => simp
  | cons c cs ih =>
    obtain ⟨hc, hn'⟩ := List.nodup_cons.1 hn
    rw [List.foldl_cons, ih hn' fun d hd => h8 d (List.mem_cons_of_mem _ hd), List.any_cons]
    cases hb : row.getLsbD (7 - c) with
    | false => rw [drawBit_zero hb]; simp
    | true =>
      have hsame : (cs.any fun d => row.getLsbD (7 - d) &&
          Display.cell (drawBit x0 y0 r row acc c).fb (columnOf x0 d) (rowOf y0 r)) =
          cs.any fun d => row.getLsbD (7 - d) && Display.cell acc.fb (columnOf x0 d) (rowOf y0 r) := by
        rw [Bool.eq_iff_iff]
        simp only [List.any_eq_true]
        refine exists_congr fun d => and_congr_right fun hd => ?_
        have hne : columnOf x0 d ≠ columnOf x0 c := fun e =>
          hc ((columnOf_inj (h8 d (by simp [hd])) (h8 c (by simp))).1 e ▸ hd)
        rw [drawBit_one hb, Display.cell_toggle]
        simp [hne]
      rw [hsame, drawBit_one hb]
      simp [Bool.or_assoc]

/-- Every cell after one sprite row (R112, R120). -/
theorem drawRow_cell (x0 y0 r : Nat) (row : Byte) (acc : Blit) (px : Fin 64) (py : Fin 32) :
    Display.cell (drawRow x0 y0 r row acc).fb px py =
      (Display.cell acc.fb px py ^^
        (decide (py = rowOf y0 r) &&
          [0, 1, 2, 3, 4, 5, 6, 7].any fun c => row.getLsbD (7 - c) && decide (px = columnOf x0 c))) :=
  drawBits_cell x0 y0 r row _ (by decide) (by decide) acc px py

/-- The collision value after one sprite row (R115). -/
theorem drawRow_coll (x0 y0 r : Nat) (row : Byte) (acc : Blit) :
    (drawRow x0 y0 r row acc).coll =
      (acc.coll || [0, 1, 2, 3, 4, 5, 6, 7].any fun c =>
        row.getLsbD (7 - c) && Display.cell acc.fb (columnOf x0 c) (rowOf y0 r)) :=
  drawBits_coll x0 y0 r row _ (by decide) (by decide) acc

@[simp] theorem drawRows_nil (x0 y0 r : Nat) (acc : Blit) : drawRows x0 y0 r [] acc = acc := rfl

@[simp] theorem drawRows_cons (x0 y0 r : Nat) (row : Byte) (rows : List Byte) (acc : Blit) :
    drawRows x0 y0 r (row :: rows) acc = drawRows x0 y0 (r + 1) rows (drawRow x0 y0 r row acc) := rfl

/-- A DRW whose sprite lies in memory is done; another faults with nothing written (R112, R117). -/
theorem drwCommand_of_fits {x y : RegIx} {n : Fin 16} {s : State} (h : fits s.i.toNat n.val = true) :
    drwCommand x y n s =
      let out := drawRows (s.originColumn x) (s.originRow y) 0 (s.mem.readBytes s.i.toNat n.val) ⟨s.fb, false⟩
      .done ({ s with fb := out.fb }.setReg vf (flagByte out.coll)) := by simp [drwCommand, h]

theorem drwCommand_of_not_fits {x y : RegIx} {n : Fin 16} {s : State} (h : fits s.i.toNat n.val = false) :
    drwCommand x y n s = .fault (.bounds (firstOutside s.i.toNat)) := by simp [drwCommand, h]

/-- All a done DRW changes: the display and VF (R126 item 7). -/
theorem drwCommand_done {x y : RegIx} {n : Fin 16} {s t : State} (h : drwCommand x y n s = .done t) :
    fits s.i.toNat n.val = true ∧ ∃ f : Bool, t = { s with fb := t.fb, v := s.v.set vf.val (flagByte f) } := by
  by_cases hf : fits s.i.toNat n.val = true
  · rw [drwCommand_of_fits hf] at h
    cases h
    exact ⟨hf, _, rfl⟩
  · rw [drwCommand_of_not_fits (by simpa using hf)] at h
    cases h

end Sys2Proof.Machine
end

