-- ==== Sys2Proof/Laws/Index.lean ====
section
/-! SUPPORT. Block store and load, and the BCD command: what they change. -/

namespace Sys2Proof.Machine

/-- A block store changes memory alone (R195). -/
theorem State.storeRegs_frame (s : State) (base count : Nat) :
    s.storeRegs base count = { s with mem := (s.storeRegs base count).mem } := by
  induction count with
  | zero => rfl
  | succ n ih => rw [State.storeRegs, ih]

@[simp] theorem State.storeRegs_reg (s : State) (base count : Nat) (x : RegIx) :
    (s.storeRegs base count).reg x = s.reg x := by rw [State.storeRegs_frame]; rfl

theorem State.storeRegs_wf {s : State} {base count : Nat} (h : s.mem.wf = true) (hb : base + count ≤ 4096) :
    (s.storeRegs base count).mem.wf = true := by
  induction count with
  | zero => exact h
  | succ n ih => exact Memory.wf_write _ (ih (by omega)) (by omega)

/-- Every byte after a block store of `V[0] .. V[count-1]` (R195). -/
theorem State.storeRegs_read {s : State} {base count : Nat} (h : s.mem.wf = true) (hb : base + count ≤ 4096) (a : Nat) :
    (s.storeRegs base count).mem.read a =
      if base ≤ a ∧ a < base + count then s.reg (Fin.ofNat 16 (a - base)) else s.mem.read a := by
  induction count with
  | zero => rw [if_neg (by omega)]; rfl
  | succ n ih =>
    have hwf := State.storeRegs_wf (s := s) (base := base) (count := n) h (by omega)
    simp only [State.storeRegs, State.storeRegs_reg]
    by_cases ha : a = base + n
    · subst ha
      rw [Memory.read_write_same hwf, if_pos (by omega), Nat.add_sub_cancel_left]
    · rw [Memory.read_write_ne hwf _ ha, ih (by omega)]
      by_cases hc : base ≤ a ∧ a < base + n
      · rw [if_pos hc, if_pos (by omega)]
      · rw [if_neg hc, if_neg (by omega)]

/-- A block load changes registers alone (R196). -/
theorem State.loadRegs_frame (s : State) (base count : Nat) :
    s.loadRegs base count = { s with v := (s.loadRegs base count).v } := by
  induction count with
  | zero => rfl
  | succ n ih => rw [State.loadRegs, ih]; rfl

@[simp] theorem State.loadRegs_mem (s : State) (base count : Nat) : (s.loadRegs base count).mem = s.mem := by
  rw [State.loadRegs_frame]

/-- Every register after a block load of `V[0] .. V[count-1]` (R196). -/
theorem State.loadRegs_reg (s : State) (base : Nat) {count : Nat} (hc : count ≤ 16) (x : RegIx) :
    (s.loadRegs base count).reg x = if x.val < count then s.mem.read (base + x.val) else s.reg x := by
  induction count with
  | zero => rw [if_neg (by omega)]; rfl
  | succ n ih =>
    simp only [State.loadRegs, State.loadRegs_mem]
    by_cases hx : x = Fin.ofNat 16 n
    · subst hx
      rw [State.reg_setReg_same, if_pos] <;> simp [Fin.ofNat, Nat.mod_eq_of_lt (show n < 16 by omega)]
    · have hv : x.val ≠ n := fun e => hx (Fin.ext (by simp [Fin.ofNat, e, Nat.mod_eq_of_lt (show n < 16 by omega)]))
      rw [State.reg_setReg_ne _ _ (Ne.symm hx), ih (by omega)]
      by_cases hl : x.val < n
      · rw [if_pos hl, if_pos (by omega)]
      · rw [if_neg hl, if_neg (by omega)]

theorem bcdCommand_of_fits {x : RegIx} {s : State} (h : fits s.i.toNat 3 = true) :
    bcdCommand x s = .done { s with mem := s.mem.writeBytes s.i.toNat (unpack (bcd12 (s.reg x))) } := by
  simp [bcdCommand, h]

theorem bcdCommand_of_not_fits {x : RegIx} {s : State} (h : fits s.i.toNat 3 = false) :
    bcdCommand x s = .fault (.bounds (firstOutside s.i.toNat)) := by simp [bcdCommand, h]

@[simp] theorem unpack_length (bus : BitVec 12) : (unpack bus).length = 3 := rfl

end Sys2Proof.Machine
end

