-- ==== Sys2Proof/Laws/Exec.lean ====
section
/-! SUPPORT. What an instruction can do to the state, said once for all of them: which fields it may change when it
completes, and that it otherwise takes a fault. -/

namespace Sys2Proof.Machine

/-- The fields a completed instruction may change; every other field is the old one. -/
def Footprint (i : Instr) (s t : State) : Prop :=
  match i with
  | .drw _ _ _ => ∃ fb f, t = { s with fb := fb, v := s.v.set vf.val (flagByte f), pc := s.pc + 2 }
  | .cls => t = { s with fb := Display.clear, pc := s.pc + 2 }
  | .bcd _ => ∃ m, t = { s with mem := m, pc := s.pc + 2 }
  | .ret => ∃ sp pc, t = { s with sp := sp, pc := pc }
  | .jp nnn => t = { s with pc := target nnn }
  | .call nnn => ∃ st sp, t = { s with stack := st, sp := sp, pc := target nnn }
  | .seImm _ _ => ∃ c : Bool, t = s.skipIf c
  | .sneImm _ _ => ∃ c : Bool, t = s.skipIf c
  | .seReg _ _ => ∃ c : Bool, t = s.skipIf c
  | .ldImm _ _ => ∃ v, t = { s with v := v, pc := s.pc + 2 }
  | .addImm _ _ => ∃ v, t = { s with v := v, pc := s.pc + 2 }
  | .ldReg _ _ => ∃ v, t = { s with v := v, pc := s.pc + 2 }
  | .orReg _ _ => ∃ v, t = { s with v := v, pc := s.pc + 2 }
  | .andReg _ _ => ∃ v, t = { s with v := v, pc := s.pc + 2 }
  | .xorReg _ _ => ∃ v, t = { s with v := v, pc := s.pc + 2 }
  | .addReg _ _ => ∃ v, t = { s with v := v, pc := s.pc + 2 }
  | .subReg _ _ => ∃ v, t = { s with v := v, pc := s.pc + 2 }
  | .shr _ _ => ∃ v, t = { s with v := v, pc := s.pc + 2 }
  | .subnReg _ _ => ∃ v, t = { s with v := v, pc := s.pc + 2 }
  | .shl _ _ => ∃ v, t = { s with v := v, pc := s.pc + 2 }
  | .sneReg _ _ => ∃ c : Bool, t = s.skipIf c
  | .ldI _ => ∃ a, t = { s with i := a, pc := s.pc + 2 }
  | .jpV0 _ => ∃ pc, t = { s with pc := pc }
  | .rnd _ _ => ∃ v, t = { s with v := v, pc := s.pc + 2, draws := s.draws + 1 }
  | .skp _ => ∃ c : Bool, t = s.skipIf c
  | .sknp _ => ∃ c : Bool, t = s.skipIf c
  | .ldVxDt _ => ∃ v, t = { s with v := v, pc := s.pc + 2 }
  | .ldVxK _ => t = s ∨ ∃ v, t = { s with v := v, pc := s.pc + 2 }
  | .ldDtVx _ => ∃ b, t = { s with dt := b, pc := s.pc + 2 }
  | .ldStVx _ => ∃ b, t = { s with st := b, pc := s.pc + 2 }
  | .addI _ => ∃ a, t = { s with i := a, pc := s.pc + 2 }
  | .ldF _ => ∃ a, t = { s with i := a, pc := s.pc + 2 }
  | .ldMemVx _ => ∃ m, t = { s with mem := m, pc := s.pc + 2 }
  | .ldVxMem _ => ∃ v, t = { s with v := v, pc := s.pc + 2 }

/-- The fault an instruction raises from a state, by the conditions of R221, R222 and R223. -/
def Raises (i : Instr) (s : State) (e : Trap) : Prop :=
  match i with
  | .drw _ _ n => fits s.i.toNat n.val = false ∧ e = .bounds (firstOutside s.i.toNat)
  | .bcd _ => fits s.i.toNat 3 = false ∧ e = .bounds (firstOutside s.i.toNat)
  | .ldMemVx x => fits s.i.toNat (x.val + 1) = false ∧ e = .bounds (firstOutside s.i.toNat)
  | .ldVxMem x => fits s.i.toNat (x.val + 1) = false ∧ e = .bounds (firstOutside s.i.toNat)
  | .call _ => s.sp = 16 ∧ e = .stackOverflow
  | .ret => s.sp = 0 ∧ e = .stackUnderflow
  | _ => False

theorem execDrw_cases {x y : RegIx} {n : Fin 16} {s t : State} (h : execDrw x y n s = .next t) :
    (fits s.i.toNat n.val = true ∧ Footprint (.drw x y n) s t) ∨
    (fits s.i.toNat n.val = false ∧ t = s.raise (.bounds (firstOutside s.i.toNat))) := by
  cases hf : fits s.i.toNat n.val with
  | true =>
    rw [execDrw, drwCommand_of_fits hf] at h
    cases h
    exact .inl ⟨rfl, _, _, rfl⟩
  | false =>
    rw [execDrw, drwCommand_of_not_fits hf] at h
    cases h
    exact .inr ⟨rfl, rfl⟩

theorem execBcd_cases {x : RegIx} {s t : State} (h : execBcd x s = .next t) :
    (fits s.i.toNat 3 = true ∧
      t = { s with mem := s.mem.writeBytes s.i.toNat (unpack (bcd12 (s.reg x))), pc := s.pc + 2 }) ∨
    (fits s.i.toNat 3 = false ∧ t = s.raise (.bounds (firstOutside s.i.toNat))) := by
  cases hf : fits s.i.toNat 3 with
  | true =>
    rw [execBcd, bcdCommand_of_fits hf] at h
    cases h
    exact .inl ⟨rfl, rfl⟩
  | false =>
    rw [execBcd, bcdCommand_of_not_fits hf] at h
    cases h
    exact .inr ⟨rfl, rfl⟩

theorem execCall_cases {nnn : Addr12} {s t : State} (h : execCall nnn s = .next t) :
    (s.sp.val < 16 ∧ Footprint (.call nnn) s t) ∨ (s.sp = 16 ∧ t = s.raise .stackOverflow) := by
  by_cases hs : s.sp.val < 16
  · rw [execCall, State.push_of_lt _ hs] at h
    cases h
    exact .inl ⟨hs, _, _, rfl⟩
  · have hfull : s.sp = 16 := Fin.ext (by have := s.sp.isLt; simp; omega)
    rw [execCall, State.push_of_full _ hfull] at h
    cases h
    exact .inr ⟨hfull, rfl⟩

theorem execRet_cases {s t : State} (h : execRet s = .next t) :
    (0 < s.sp.val ∧ Footprint .ret s t) ∨ (s.sp = 0 ∧ t = s.raise .stackUnderflow) := by
  by_cases hs : 0 < s.sp.val
  · rw [execRet, State.pop_of_pos hs] at h
    cases h
    exact .inl ⟨hs, _, _, rfl⟩
  · have hempty : s.sp = 0 := Fin.ext (by simpa using hs)
    rw [execRet, State.pop_of_empty hempty] at h
    cases h
    exact .inr ⟨hempty, rfl⟩

theorem execLdMemVx_cases {x : RegIx} {s t : State} (h : execLdMemVx x s = .next t) :
    (fits s.i.toNat (x.val + 1) = true ∧
      t = { s with mem := (s.storeRegs s.i.toNat (x.val + 1)).mem, pc := s.pc + 2 }) ∨
    (fits s.i.toNat (x.val + 1) = false ∧ t = s.raise (.bounds (firstOutside s.i.toNat))) := by
  unfold execLdMemVx at h
  split at h <;> cases h
  · refine .inl ⟨‹_›, ?_⟩
    rw [State.storeRegs_frame]; rfl
  · exact .inr ⟨Bool.eq_false_of_not_eq_true ‹_›, rfl⟩

theorem execLdVxMem_cases {x : RegIx} {s t : State} (h : execLdVxMem x s = .next t) :
    (fits s.i.toNat (x.val + 1) = true ∧
      t = { s with v := (s.loadRegs s.i.toNat (x.val + 1)).v, pc := s.pc + 2 }) ∨
    (fits s.i.toNat (x.val + 1) = false ∧ t = s.raise (.bounds (firstOutside s.i.toNat))) := by
  unfold execLdVxMem at h
  split at h <;> cases h
  · refine .inl ⟨‹_›, ?_⟩
    rw [State.loadRegs_frame]; rfl
  · exact .inr ⟨Bool.eq_false_of_not_eq_true ‹_›, rfl⟩

/-- A key-skip that gives a next state moved `PC`, or took the bounds error its policy gives a number above 15. -/
theorem skipOnKey_cases {policy : Config.KeyPolicy} {want : Bool} {x : RegIx} {s t : State}
    (h : skipOnKey policy want x s = .next t) :
    (∃ c : Bool, t = s.skipIf c) ∨
    (16 ≤ (s.reg x).toNat ∧ policy (s.reg x) s.key = .boundsError ∧
      t = s.raise (.bounds (firstOutside (s.reg x).toNat))) := by
  unfold skipOnKey at h
  split at h <;> cases h
  · exact .inl ⟨_, rfl⟩
  · rename_i hk
    by_cases hlt : (s.reg x).toNat < 16
    · rw [State.keyState_of_lt policy hlt] at hk
      cases hk
    · rw [State.keyState_of_ge policy (by omega)] at hk
      exact .inr ⟨by omega, hk, rfl⟩

theorem skipOnKey_refuseKeys_cases {want : Bool} {x : RegIx} {s t : State}
    (h : skipOnKey Config.refuseKeys want x s = .next t) : ∃ c : Bool, t = s.skipIf c := by
  rcases skipOnKey_cases h with h | ⟨-, hp, -⟩
  · exact h
  · cases hp

/-- Wait-for-key changes nothing, or writes a register and advances `PC`, whatever is selected. -/
theorem waitKey_cases (sel : Config.KeySel) (x : RegIx) (s : State) :
    waitKey sel x s = s ∨ ∃ v, waitKey sel x s = { s with v := v, pc := s.pc + 2 } := by
  unfold waitKey
  split
  · exact .inr ⟨_, rfl⟩
  · exact .inl rfl

/-- An instruction that gives a next state completed inside its footprint, or took the fault it raises. -/
theorem exec_cases {i : Instr} {s t : State} (h : exec i s = .next t) :
    Footprint i s t ∨ ∃ e : Trap, Raises i s e ∧ t = s.raise e := by
  cases i with
  | drw x y n => rcases execDrw_cases h with ⟨-, h⟩ | ⟨hr, h⟩; exacts [.inl h, .inr ⟨_, ⟨hr, rfl⟩, h⟩]
  | cls => cases h; exact .inl rfl
  | bcd x => rcases execBcd_cases h with ⟨-, h⟩ | ⟨hr, h⟩; exacts [.inl ⟨_, h⟩, .inr ⟨_, ⟨hr, rfl⟩, h⟩]
  | ret => rcases execRet_cases h with ⟨-, h⟩ | ⟨hr, h⟩; exacts [.inl h, .inr ⟨_, ⟨hr, rfl⟩, h⟩]
  | jp nnn => cases h; exact .inl rfl
  | call nnn => rcases execCall_cases h with ⟨-, h⟩ | ⟨hr, h⟩; exacts [.inl h, .inr ⟨_, ⟨hr, rfl⟩, h⟩]
  | seImm x kk => cases h; exact .inl ⟨_, rfl⟩
  | sneImm x kk => cases h; exact .inl ⟨_, rfl⟩
  | seReg x y => cases h; exact .inl ⟨_, rfl⟩
  | ldImm x kk => cases h; exact .inl ⟨_, rfl⟩
  | addImm x kk => cases h; exact .inl ⟨_, rfl⟩
  | ldReg x y => cases h; exact .inl ⟨_, rfl⟩
  | orReg x y => cases h; exact .inl ⟨_, rfl⟩
  | andReg x y => cases h; exact .inl ⟨_, rfl⟩
  | xorReg x y => cases h; exact .inl ⟨_, rfl⟩
  | addReg x y => cases h; exact .inl ⟨_, rfl⟩
  | subReg x y => cases h; exact .inl ⟨_, rfl⟩
  | shr x y => cases h; exact .inl ⟨_, rfl⟩
  | subnReg x y => cases h; exact .inl ⟨_, rfl⟩
  | shl x y => cases h; exact .inl ⟨_, rfl⟩
  | sneReg x y => cases h; exact .inl ⟨_, rfl⟩
  | ldI nnn => cases h; exact .inl ⟨_, rfl⟩
  | jpV0 nnn => cases h; exact .inl ⟨_, rfl⟩
  | rnd x kk => cases h; exact .inl ⟨_, rfl⟩
  | skp x => exact .inl (skipOnKey_refuseKeys_cases h)
  | sknp x => exact .inl (skipOnKey_refuseKeys_cases h)
  | ldVxDt x => cases h; exact .inl ⟨_, rfl⟩
  | ldVxK x =>
    cases h
    exact .inl (waitKey_cases _ x s)
  | ldDtVx x => cases h; exact .inl ⟨_, rfl⟩
  | ldStVx x => cases h; exact .inl ⟨_, rfl⟩
  | addI x => cases h; exact .inl ⟨_, rfl⟩
  | ldF x => cases h; exact .inl ⟨_, rfl⟩
  | ldMemVx x => rcases execLdMemVx_cases h with ⟨-, h⟩ | ⟨hr, h⟩; exacts [.inl ⟨_, h⟩, .inr ⟨_, ⟨hr, rfl⟩, h⟩]
  | ldVxMem x => rcases execLdVxMem_cases h with ⟨-, h⟩ | ⟨hr, h⟩; exacts [.inl ⟨_, h⟩, .inr ⟨_, ⟨hr, rfl⟩, h⟩]

/-- A completed instruction leaves `FLT` and the keys alone. -/
theorem Footprint.flt {i : Instr} {s t : State} (h : Footprint i s t) : t.flt = s.flt := by
  cases i <;> simp only [Footprint] at h <;>
    first
    | (subst h; rfl)
    | (obtain h | ⟨_, h⟩ := h <;> rw [h])
    | (obtain ⟨_, rfl⟩ := h; rfl)
    | (obtain ⟨_, _, rfl⟩ := h; rfl)

theorem Footprint.key {i : Instr} {s t : State} (h : Footprint i s t) : t.key = s.key := by
  cases i <;> simp only [Footprint] at h <;>
    first
    | (subst h; rfl)
    | (obtain h | ⟨_, h⟩ := h <;> rw [h])
    | (obtain ⟨_, rfl⟩ := h; rfl)
    | (obtain ⟨_, _, rfl⟩ := h; rfl)

end Sys2Proof.Machine
end

