-- ==== Sys2Proof/Laws/PerInstr.lean ====
section
/-! SUPPORT. Statements made once per instruction. Family `WordKeys`: the canonical word of an instruction carries the
dispatch keys of its row (R89, R91 to R94). -/

namespace Sys2Proof.Laws.WordKeys

/-- The primary and secondary dispatch key of each instruction, from the table of R91 to R94. -/
def keys : Instr → Nat × SubKey
  | .drw _ _ _ => (0xD, .none)
  | .cls => (0x0, .low 0xE0)
  | .bcd _ => (0xF, .low 0x33)
  | .ret => (0x0, .low 0xEE)
  | .jp _ => (0x1, .none)
  | .call _ => (0x2, .none)
  | .seImm _ _ => (0x3, .none)
  | .sneImm _ _ => (0x4, .none)
  | .seReg _ _ => (0x5, .none)
  | .ldImm _ _ => (0x6, .none)
  | .addImm _ _ => (0x7, .none)
  | .ldReg _ _ => (0x8, .n1 0x0)
  | .orReg _ _ => (0x8, .n1 0x1)
  | .andReg _ _ => (0x8, .n1 0x2)
  | .xorReg _ _ => (0x8, .n1 0x3)
  | .addReg _ _ => (0x8, .n1 0x4)
  | .subReg _ _ => (0x8, .n1 0x5)
  | .shr _ _ => (0x8, .n1 0x6)
  | .subnReg _ _ => (0x8, .n1 0x7)
  | .shl _ _ => (0x8, .n1 0xE)
  | .sneReg _ _ => (0x9, .none)
  | .ldI _ => (0xA, .none)
  | .jpV0 _ => (0xB, .none)
  | .rnd _ _ => (0xC, .none)
  | .skp _ => (0xE, .low 0x9E)
  | .sknp _ => (0xE, .low 0xA1)
  | .ldVxDt _ => (0xF, .low 0x07)
  | .ldVxK _ => (0xF, .low 0x0A)
  | .ldDtVx _ => (0xF, .low 0x15)
  | .ldStVx _ => (0xF, .low 0x18)
  | .addI _ => (0xF, .low 0x1E)
  | .ldF _ => (0xF, .low 0x29)
  | .ldMemVx _ => (0xF, .low 0x55)
  | .ldVxMem _ => (0xF, .low 0x65)

/-- The instruction's canonical word has its row's keys. -/
def Statement (i : Instr) : Prop :=
  (encode i).toNat / 4096 = (keys i).1 ∧ (keys i).2.selects (encode i) = true

/-- The operand bits of a row's words leave its secondary key alone. -/
def Beside (k : SubKey) (bits : Nat) : Prop :=
  bits < 4096 ∧
    match k with
    | .none => True
    | .n1 k => k < 16 ∧ bits % 16 = 0
    | .low b => b < 256 ∧ bits % 256 = 0

/-- A row's word carries the row's keys. -/
theorem word_keys (r : OpRow) {bits : Nat} (h4 : r.n4 < 16) (hb : Beside r.sub bits) :
    (r.word bits).toNat / 4096 = r.n4 ∧ r.sub.selects (r.word bits) = true := by
  obtain ⟨mnemonic, n4, sub, build, operands⟩ := r
  cases sub <;> simp only [Beside] at hb h4 <;>
    rw [OpRow.word_toNat (by simp only [OpRow.pattern]; omega), SubKey.selects] <;>
    simp only [OpRow.pattern, beq_iff_eq, and_true] <;>
    first
    | omega
    | (rw [OpRow.word_toNat (by simp only [OpRow.pattern]; omega)]; simp only [OpRow.pattern]; omega)

theorem drw (x y : RegIx) (n : Fin 16) : Statement (.drw x y n) :=
  word_keys blockRows[0] (by decide) ⟨layoutXYN_lt x y n, trivial⟩

theorem cls : Statement .cls :=
  word_keys blockRows[1] (by decide) ⟨by decide, by decide, rfl⟩

theorem bcd (x : RegIx) : Statement (.bcd x) :=
  word_keys blockRows[2] (by decide) ⟨(layoutX_fits x).1, by decide, (layoutX_fits x).2⟩

theorem ret : Statement .ret :=
  word_keys controlRows[0] (by decide) ⟨by decide, by decide, rfl⟩

theorem jp (nnn : Addr12) : Statement (.jp nnn) :=
  word_keys controlRows[1] (by decide) ⟨layoutNNN_lt nnn, trivial⟩

theorem call (nnn : Addr12) : Statement (.call nnn) :=
  word_keys controlRows[2] (by decide) ⟨layoutNNN_lt nnn, trivial⟩

theorem seImm (x : RegIx) (kk : Byte) : Statement (.seImm x kk) :=
  word_keys controlRows[3] (by decide) ⟨layoutXKK_lt x kk, trivial⟩

theorem sneImm (x : RegIx) (kk : Byte) : Statement (.sneImm x kk) :=
  word_keys controlRows[4] (by decide) ⟨layoutXKK_lt x kk, trivial⟩

theorem seReg (x y : RegIx) : Statement (.seReg x y) :=
  word_keys controlRows[5] (by decide) ⟨(layoutXY_fits x y).1, trivial⟩

theorem ldImm (x : RegIx) (kk : Byte) : Statement (.ldImm x kk) :=
  word_keys controlRows[6] (by decide) ⟨layoutXKK_lt x kk, trivial⟩

theorem addImm (x : RegIx) (kk : Byte) : Statement (.addImm x kk) :=
  word_keys controlRows[7] (by decide) ⟨layoutXKK_lt x kk, trivial⟩

theorem ldReg (x y : RegIx) : Statement (.ldReg x y) :=
  word_keys aluRows[0] (by decide) ⟨(layoutXY_fits x y).1, by decide, (layoutXY_fits x y).2⟩

theorem orReg (x y : RegIx) : Statement (.orReg x y) :=
  word_keys aluRows[1] (by decide) ⟨(layoutXY_fits x y).1, by decide, (layoutXY_fits x y).2⟩

theorem andReg (x y : RegIx) : Statement (.andReg x y) :=
  word_keys aluRows[2] (by decide) ⟨(layoutXY_fits x y).1, by decide, (layoutXY_fits x y).2⟩

theorem xorReg (x y : RegIx) : Statement (.xorReg x y) :=
  word_keys aluRows[3] (by decide) ⟨(layoutXY_fits x y).1, by decide, (layoutXY_fits x y).2⟩

theorem addReg (x y : RegIx) : Statement (.addReg x y) :=
  word_keys aluRows[4] (by decide) ⟨(layoutXY_fits x y).1, by decide, (layoutXY_fits x y).2⟩

theorem subReg (x y : RegIx) : Statement (.subReg x y) :=
  word_keys aluRows[5] (by decide) ⟨(layoutXY_fits x y).1, by decide, (layoutXY_fits x y).2⟩

theorem shr (x y : RegIx) : Statement (.shr x y) :=
  word_keys aluRows[6] (by decide) ⟨(layoutXY_fits x y).1, by decide, (layoutXY_fits x y).2⟩

theorem subnReg (x y : RegIx) : Statement (.subnReg x y) :=
  word_keys aluRows[7] (by decide) ⟨(layoutXY_fits x y).1, by decide, (layoutXY_fits x y).2⟩

theorem shl (x y : RegIx) : Statement (.shl x y) :=
  word_keys aluRows[8] (by decide) ⟨(layoutXY_fits x y).1, by decide, (layoutXY_fits x y).2⟩

theorem sneReg (x y : RegIx) : Statement (.sneReg x y) :=
  word_keys indexRows[0] (by decide) ⟨(layoutXY_fits x y).1, trivial⟩

theorem ldI (nnn : Addr12) : Statement (.ldI nnn) :=
  word_keys indexRows[1] (by decide) ⟨layoutNNN_lt nnn, trivial⟩

theorem jpV0 (nnn : Addr12) : Statement (.jpV0 nnn) :=
  word_keys indexRows[2] (by decide) ⟨layoutNNN_lt nnn, trivial⟩

theorem rnd (x : RegIx) (kk : Byte) : Statement (.rnd x kk) :=
  word_keys indexRows[3] (by decide) ⟨layoutXKK_lt x kk, trivial⟩

theorem skp (x : RegIx) : Statement (.skp x) :=
  word_keys lowByteRows[0] (by decide) ⟨(layoutX_fits x).1, by decide, (layoutX_fits x).2⟩

theorem sknp (x : RegIx) : Statement (.sknp x) :=
  word_keys lowByteRows[1] (by decide) ⟨(layoutX_fits x).1, by decide, (layoutX_fits x).2⟩

theorem ldVxDt (x : RegIx) : Statement (.ldVxDt x) :=
  word_keys lowByteRows[2] (by decide) ⟨(layoutX_fits x).1, by decide, (layoutX_fits x).2⟩

theorem ldVxK (x : RegIx) : Statement (.ldVxK x) :=
  word_keys lowByteRows[3] (by decide) ⟨(layoutX_fits x).1, by decide, (layoutX_fits x).2⟩

theorem ldDtVx (x : RegIx) : Statement (.ldDtVx x) :=
  word_keys lowByteRows[4] (by decide) ⟨(layoutX_fits x).1, by decide, (layoutX_fits x).2⟩

theorem ldStVx (x : RegIx) : Statement (.ldStVx x) :=
  word_keys lowByteRows[5] (by decide) ⟨(layoutX_fits x).1, by decide, (layoutX_fits x).2⟩

theorem addI (x : RegIx) : Statement (.addI x) :=
  word_keys lowByteRows[6] (by decide) ⟨(layoutX_fits x).1, by decide, (layoutX_fits x).2⟩

theorem ldF (x : RegIx) : Statement (.ldF x) :=
  word_keys lowByteRows[7] (by decide) ⟨(layoutX_fits x).1, by decide, (layoutX_fits x).2⟩

theorem ldMemVx (x : RegIx) : Statement (.ldMemVx x) :=
  word_keys lowByteRows[8] (by decide) ⟨(layoutX_fits x).1, by decide, (layoutX_fits x).2⟩

theorem ldVxMem (x : RegIx) : Statement (.ldVxMem x) :=
  word_keys lowByteRows[9] (by decide) ⟨(layoutX_fits x).1, by decide, (layoutX_fits x).2⟩

end Sys2Proof.Laws.WordKeys
end

