-- ==== Sys2Proof/Laws/Ports.lean ====
section
/-! SUPPORT. When the block accepts a command and what one can be; what placing a font and a host call can do to
memory and `FLT`. -/

namespace Sys2Proof.Machine

/-! ### The block's commands -/

/-- The block accepts a command exactly while no fault is latched (R227). -/
theorem State.acceptsCommand_iff (s : State) : s.acceptsCommand = true ↔ s.Running := by
  simp [State.acceptsCommand, State.Running]

/-- A command the block runs was accepted, and has the effect of its instruction. -/
theorem blockCommand_eq_some_iff {i : Instr} {s : State} {r : BlockResult} :
    blockCommand i s = some r ↔ s.Running ∧ commandEffect i s = some r := by
  rw [blockCommand, ← State.acceptsCommand_iff]
  cases s.acceptsCommand <;> simp

/-- The block's commands are DRW, CLS and BCD (R88). -/
theorem commandEffect_cases {i : Instr} {s : State} {r : BlockResult} (h : commandEffect i s = some r) :
    (∃ x y n, i = .drw x y n ∧ r = drwCommand x y n s) ∨ (i = .cls ∧ r = clsCommand s) ∨
      ∃ x, i = .bcd x ∧ r = bcdCommand x s := by
  cases i <;> simp_all [commandEffect]

theorem blockRsp_of_running {s : State} (h : s.Running) (w : Word) : blockRsp w s = some (rspPayload w s) :=
  if_pos ((State.acceptsCommand_iff s).2 h)

/-- The transfers of a command the block accepts: `cmd`, those of the instruction, `rsp` (R40). -/
theorem blockTransfers_of_running {s : State} (h : s.Running) (w : Word) :
    blockTransfers w s = [.cmd w] ++ wordTransfers w s ++ [.rsp (rspPayload w s)] := by
  rw [blockTransfers, blockRsp_of_running h]

/-! ### Placing a font -/

/-- Placing a font changes memory alone. -/
theorem placeFont_eq (image : Vector Byte 80) (s : State) :
    placeFont image s = { s with mem := s.mem.writeBytes Config.fontBase image.toList } := rfl

@[simp] theorem placeFont_pc (image : Vector Byte 80) (s : State) : (placeFont image s).pc = s.pc := rfl

@[simp] theorem placeFont_sp (image : Vector Byte 80) (s : State) : (placeFont image s).sp = s.sp := rfl

@[simp] theorem placeFont_fb (image : Vector Byte 80) (s : State) : (placeFont image s).fb = s.fb := rfl

@[simp] theorem placeFont_flt (image : Vector Byte 80) (s : State) : (placeFont image s).flt = s.flt := rfl

/-- Placing a font keeps memory's canonical form. -/
theorem wf_placeFont (image : Vector Byte 80) {s : State} (h : s.mem.wf = true) : (placeFont image s).mem.wf = true :=
  Memory.wf_writeBytes _ h (by simp)

/-! ### Host calls -/

/-- All a host call that is not rejected can be (R198 to R201). -/
theorem applyHostCall_cases {c : HostCall} {s t : State} (h : applyHostCall c s = .ok t) :
    (∃ bytes, c = .loadProgram bytes ∧ bytes.length ≤ Config.maxImage ∧
      t = { s with mem := s.mem.writeBytes Config.progBase bytes, pc := BitVec.ofNat 16 Config.progBase }) ∨
    (c = .tickTimers ∧ t = tickTimers s) ∨
    (∃ index pressed, c = .setKey index pressed ∧ index < 16 ∧ t = { s with key := t.key }) ∨
    (c = .reset ∧ t = { State.reset with draws := s.draws }) := by
  cases c with
  | loadProgram bytes =>
    simp only [applyHostCall, loadProgram] at h
    split at h
    · cases h
    · cases h; exact .inl ⟨bytes, rfl, by omega, rfl⟩
  | tickTimers => cases h; exact .inr (.inl ⟨rfl, rfl⟩)
  | setKey index pressed =>
    simp only [applyHostCall, setKey] at h
    split at h
    · cases h; exact .inr (.inr (.inl ⟨index, pressed, rfl, ‹_›, rfl⟩))
    · cases h
  | reset => cases h; exact .inr (.inr (.inr ⟨rfl, rfl⟩))

end Sys2Proof.Machine
end

