-- ==== Sys2Proof/Laws/Step.lean ====
section
/-! SUPPORT. What a step can do, said once. -/

namespace Sys2Proof.Machine

theorem fetchDecode_of_latched {s : State} {om : OpMap} (h : s.flt.kind ≠ .none) :
    fetchDecode s om = .latched s.flt.kind s.flt.addr := if_pos h

theorem fetchDecode_of_outside {s : State} {om : OpMap} (h : s.flt.kind = .none) (hf : fits s.pc.toNat 2 = false) :
    fetchDecode s om = .outside (firstOutside s.pc.toNat) := by simp [fetchDecode, h, hf]

theorem fetchDecode_of_instr {s : State} {om : OpMap} {i : Instr} (h : s.flt.kind = .none)
    (hf : fits s.pc.toNat 2 = true) (hd : decodeWord s.fetchWord om = some i) : fetchDecode s om = .instr i := by
  simp [fetchDecode, h, hf, hd]

theorem fetchDecode_of_unknown {s : State} {om : OpMap} (h : s.flt.kind = .none)
    (hf : fits s.pc.toNat 2 = true) (hd : decodeWord s.fetchWord om = none) :
    fetchDecode s om = .unknown s.fetchWord := by
  simp [fetchDecode, h, hf, hd]

/-! ### The open parameters -/

/-- At R10's defaults every instruction has the meaning `exec` gives it. -/
@[simp] theorem execWith_default (i : Instr) (s : State) : execWith Params.default i s = exec i s := by
  cases i <;> rfl

/-- An instruction that gives a next state completed inside its footprint, took the fault it raises, or is a key-skip that
took the bounds error a `KEYIDX_POLICY` gives it. -/
theorem execWith_cases {P : Params} {i : Instr} {s t : State} (h : execWith P i s = .next t) :
    Footprint i s t ∨ (∃ e : Trap, Raises i s e ∧ t = s.raise e) ∨
      ∃ x : RegIx, (i = .skp x ∨ i = .sknp x) ∧ 16 ≤ (s.reg x).toNat ∧
        t = s.raise (.bounds (firstOutside (s.reg x).toNat)) := by
  cases i with
  | skp x =>
    rcases skipOnKey_cases h with h | ⟨hn, -, ht⟩
    · exact .inl h
    · exact .inr (.inr ⟨x, .inl rfl, hn, ht⟩)
  | sknp x =>
    rcases skipOnKey_cases h with h | ⟨hn, -, ht⟩
    · exact .inl h
    · exact .inr (.inr ⟨x, .inr rfl, hn, ht⟩)
  | ldVxK x => cases h; exact .inl (waitKey_cases _ x s)
  | _ => simp only [execWith] at h; exact (exec_cases h).imp_right .inl

/-- All a step that gives a next state can be, under any parameters: from a running machine, the fault of the fetch, an
unknown opcode, or the instruction fetched (R160). -/
theorem stepWith_cases {P : Params} {s t : State} (h : stepWith P s = .next t) :
    s.flt.kind = .none ∧
      ((fits s.pc.toNat 2 = false ∧ t = s.raise (.bounds (firstOutside s.pc.toNat))) ∨
       (fits s.pc.toNat 2 = true ∧ decodeWord s.fetchWord P.opmap = none ∧ t = s.advance) ∨
       ∃ i, fits s.pc.toNat 2 = true ∧ decodeWord s.fetchWord P.opmap = some i ∧ execWith P i s = .next t) := by
  by_cases hk : s.flt.kind = .none
  · refine ⟨hk, ?_⟩
    cases hf : fits s.pc.toNat 2 with
    | false =>
      rw [stepWith, fetchDecode_of_outside hk hf] at h
      cases h
      exact .inl ⟨rfl, rfl⟩
    | true =>
      cases hd : decodeWord s.fetchWord P.opmap with
      | none =>
        rw [stepWith, fetchDecode_of_unknown hk hf hd] at h
        cases h
        exact .inr (.inl ⟨rfl, rfl, rfl⟩)
      | some i =>
        rw [stepWith, fetchDecode_of_instr hk hf hd] at h
        exact .inr (.inr ⟨i, rfl, rfl, h⟩)
  · rw [stepWith, fetchDecode_of_latched hk] at h
    cases h

/-- The same at R10's defaults. -/
theorem step_cases {s t : State} (h : step s = .next t) :
    s.flt.kind = .none ∧
      ((fits s.pc.toNat 2 = false ∧ t = s.raise (.bounds (firstOutside s.pc.toNat))) ∨
       (fits s.pc.toNat 2 = true ∧ decodeWord s.fetchWord = none ∧ t = s.advance) ∨
       ∃ i, fits s.pc.toNat 2 = true ∧ decodeWord s.fetchWord = some i ∧ exec i s = .next t) := by
  obtain ⟨hk, h | h | ⟨i, hf, hd, h⟩⟩ := stepWith_cases h
  · exact ⟨hk, .inl h⟩
  · exact ⟨hk, .inr (.inl h)⟩
  · exact ⟨hk, .inr (.inr ⟨i, hf, hd, by rwa [execWith_default] at h⟩)⟩

end Sys2Proof.Machine
end

