-- ==== Sys2Proof/Tests/Slice0.lean ====
section
/-! SUPPORT. The model's own tests. Expected results are the spec's: the decode vectors, tables and programs of
spec/95_test_vectors.md and the worked examples of the rules. -/

namespace Sys2Proof.Tests

open Sys2Proof Sys2Proof.Machine

/-! ### Well-formedness: a term each check refuses -/

theorem test_wf_refuses_key_index_16 : (HostCall.setKey 16 true).wf = false := by decide
theorem test_wf_accepts_key_index_15 : (HostCall.setKey 15 true).wf = true := by decide
theorem test_wf_refuses_image_of_3585 : (HostCall.loadProgram (List.replicate 3585 0)).wf = false := by
  rw [HostCall.wf, List.length_replicate]; decide
theorem test_wf_accepts_image_of_3584 : (HostCall.loadProgram (List.replicate 3584 0)).wf = true := by
  rw [HostCall.wf, List.length_replicate]; decide
theorem test_wf_accepts_every_instruction : (Instr.drw 15 15 15).wf = true := by decide
theorem test_memory_wf_refuses_zero_entry : Memory.wf [(3, 0)] = false := by decide
theorem test_memory_wf_refuses_unsorted : Memory.wf [(3, 1), (2, 1)] = false := by decide
theorem test_memory_wf_refuses_address_4096 : Memory.wf [(4096, 1)] = false := by decide

/-! ### Decoding: a word of each constructor, written out from the patterns of R91 to R94 -/

theorem test_decode_block :
    decodeWord 0b1101_1010_1011_0101 = some (.drw 0xA 0xB 5) ∧ decodeWord 0b0000_0000_1110_0000 = some .cls ∧
    decodeWord 0b1111_0001_0011_0011 = some (.bcd 1) := by decide

theorem test_decode_control :
    decodeWord 0b0000_0000_1110_1110 = some .ret ∧ decodeWord 0b0001_1010_1011_1100 = some (.jp 0xABC) ∧
    decodeWord 0b0010_0011_0000_0000 = some (.call 0x300) ∧ decodeWord 0b1011_0010_0000_0000 = some (.jpV0 0x200) := by
  decide

theorem test_decode_skips :
    decodeWord 0b0011_0001_0000_0101 = some (.seImm 1 5) ∧ decodeWord 0b0100_0001_0000_0110 = some (.sneImm 1 6) ∧
    decodeWord 0b0101_0001_0010_0000 = some (.seReg 1 2) ∧ decodeWord 0b1001_0001_0011_0000 = some (.sneReg 1 3) := by
  decide

theorem test_decode_immediates :
    decodeWord 0b0110_1010_0111_1111 = some (.ldImm 0xA 0x7F) ∧
    decodeWord 0b0111_0000_1111_1111 = some (.addImm 0 0xFF) ∧
    decodeWord 0b1100_0001_0000_1111 = some (.rnd 1 0x0F) := by decide

theorem test_decode_alu :
    decodeWord 0b1000_0001_0010_0000 = some (.ldReg 1 2) ∧ decodeWord 0b1000_0001_0010_0001 = some (.orReg 1 2) ∧
    decodeWord 0b1000_0001_0010_0010 = some (.andReg 1 2) ∧ decodeWord 0b1000_0001_0010_0011 = some (.xorReg 1 2) ∧
    decodeWord 0b1000_0001_0010_0100 = some (.addReg 1 2) ∧ decodeWord 0b1000_0001_0010_0101 = some (.subReg 1 2) ∧
    decodeWord 0b1000_0001_0010_0110 = some (.shr 1 2) ∧ decodeWord 0b1000_0001_0010_0111 = some (.subnReg 1 2) ∧
    decodeWord 0b1000_0001_0010_1110 = some (.shl 1 2) := by decide

theorem test_decode_input :
    decodeWord 0b1110_0001_1001_1110 = some (.skp 1) ∧ decodeWord 0b1110_0001_1010_0001 = some (.sknp 1) ∧
    decodeWord 0b1111_0001_0000_0111 = some (.ldVxDt 1) ∧ decodeWord 0b1111_0000_0000_1010 = some (.ldVxK 0) ∧
    decodeWord 0b1111_0001_0001_0101 = some (.ldDtVx 1) ∧ decodeWord 0b1111_0001_0001_1000 = some (.ldStVx 1) := by
  decide

theorem test_decode_index :
    decodeWord 0b1010_0001_0010_0011 = some (.ldI 0x123) ∧ decodeWord 0b1111_0001_0001_1110 = some (.addI 1) ∧
    decodeWord 0b1111_0001_0010_1001 = some (.ldF 1) ∧ decodeWord 0b1111_0010_0101_0101 = some (.ldMemVx 2) ∧
    decodeWord 0b1111_0010_0110_0101 = some (.ldVxMem 2) := by decide

/-- The unknown words of 95_test_vectors.md section 2. -/
theorem test_decode_unknown :
    decodeWord 0xF034 = none ∧ decodeWord 0xF032 = none ∧ decodeWord 0xF03B = none ∧ decodeWord 0x00E1 = none ∧
    decodeWord 0x0000 = none ∧ decodeWord 0x00FF = none ∧ decodeWord 0xE0E0 = none ∧ decodeWord 0x8128 = none := by
  decide

theorem test_decode_bytes_big_endian_with_rest : decode [0x60, 0x05, 0xF0] = .ok (.ldImm 0 5, [0xF0]) := by decide
theorem test_decode_truncated : decode [0x60] = .error .truncated := by decide
theorem test_decode_rejects_by_name : decode [0xF0, 0x34] = .error (.unknownOpcode 0xF034) := by decide

/-- Match and mask of every row, as spec/opcode_table.json writes them. -/
theorem test_opmap_block_and_control :
    (blockRows ++ controlRows).map (fun r => (r.pattern, r.mask)) =
      [(0xD000, 0xF000), (0x00E0, 0xF0FF), (0xF033, 0xF0FF), (0x00EE, 0xF0FF), (0x1000, 0xF000), (0x2000, 0xF000),
       (0x3000, 0xF000), (0x4000, 0xF000), (0x5000, 0xF000), (0x6000, 0xF000), (0x7000, 0xF000)] := by decide

theorem test_opmap_alu_and_index :
    (aluRows ++ indexRows).map (fun r => (r.pattern, r.mask)) =
      [(0x8000, 0xF00F), (0x8001, 0xF00F), (0x8002, 0xF00F), (0x8003, 0xF00F), (0x8004, 0xF00F), (0x8005, 0xF00F),
       (0x8006, 0xF00F), (0x8007, 0xF00F), (0x800E, 0xF00F), (0x9000, 0xF000), (0xA000, 0xF000), (0xB000, 0xF000),
       (0xC000, 0xF000)] := by decide

theorem test_opmap_low_byte :
    lowByteRows.map (fun r => (r.pattern, r.mask)) =
      [(0xE09E, 0xF0FF), (0xE0A1, 0xF0FF), (0xF007, 0xF0FF), (0xF00A, 0xF0FF), (0xF015, 0xF0FF), (0xF018, 0xF0FF),
       (0xF01E, 0xF0FF), (0xF029, 0xF0FF), (0xF055, 0xF0FF), (0xF065, 0xF0FF)] := by decide

/-! ### Small states -/

/-- Reset with `PC` 0x200 and registers 1, 2 and 15 set. -/
def small (v1 v2 vF : Byte) : State :=
  { State.reset with pc := 0x200, v := ((State.reset.v.set 1 v1).set 2 v2).set 15 vF }

/-- The state an answer gives, or reset. -/
def after : Answer → State
  | .next t => t
  | _ => State.reset

/-- The word `w` placed for the next fetch and run by one step. -/
def stepWord (s : State) (w : Nat) : State := after (step (s.withFetchWord 16 w))

/-- A sprite byte at 0x300, `I` pointing at it, the origin in V1, V2. -/
def sprite (b x y : Byte) : State := { small x y 0 with i := 0x300, mem := [(0x300, b)] }

/-- Which of the given cells `FB[k]` are on. -/
def on (s : State) (ks : List (Fin 2048)) : List Bool := ks.map fun k => Display.at s.fb k

/-- `FLT` as kind and address. -/
def fault (s : State) : FaultKind × Nat := (s.flt.kind, s.flt.addr.toNat)

/-! ### Display (95_test_vectors.md section 2) -/

theorem test_drw_T3_column_wraps_in_row :
    on (stepWord (sprite 0xFF 60 0) 0xD121) [60, 63, 0, 3, 4, 64] = [true, true, true, true, false, false] := by decide

theorem test_drw_T2_erase_collides :
    (after (exec (.drw 1 2 1) (after (exec (.drw 1 2 1) (sprite 0xF0 1 2))))).reg 15 = 1 := by decide

theorem test_drw_T16_faults : fault (after (exec (.drw 1 2 2) { sprite 0xFF 0 0 with i := 0xFFF })) = (.bounds, 0x1000) := by
  decide

theorem test_cls_keeps_vf :
    let t := after (exec .cls { small 0 0 1 with fb := Vector.replicate 32 (-1) })
    on t [0, 129, 2047] = [false, false, false] ∧ t.reg 15 = 1 ∧ t.pc = 0x202 := by decide

/-! ### BCD (section 3) -/

theorem test_bcd_123 :
    ((after (exec (.bcd 1) { small 123 0 0 with i := 0x300 })).mem) = [(0x300, 1), (0x301, 2), (0x302, 3)] := by decide

theorem test_bcd_faults_at_4094 :
    let s := { small 255 0 0 with i := 4094, mem := [(4094, 0xAA), (4095, 0xBB)] }
    after (exec (.bcd 1) s) = { s with flt := ⟨.bounds, 4096⟩ } := by decide

/-! ### Host core (section 5) -/

theorem test_jp : (stepWord (small 0 0 0) 0x1201).pc = 0x201 := by decide
theorem test_call : let t := stepWord (small 0 0 0) 0x2300; t.stack[0] = 0x202 ∧ t.sp = 1 ∧ t.pc = 0x300 := by decide
theorem test_ret_underflow : fault (stepWord (small 0 0 0) 0x00EE) = (.stackUnderflow, 0x200) := by decide
theorem test_ret :
    (after (exec .ret { small 0 0 0 with sp := 1, stack := State.reset.stack.set 0 0x202 })).pc = 0x202 := by decide
theorem test_skips_E9 :
    [0x3105, 0x3106, 0x4105, 0x4106, 0x5120, 0x5110, 0x9120, 0x9110].map (fun w => (stepWord (small 5 6 0) w).pc) =
      [0x204, 0x202, 0x202, 0x204, 0x202, 0x204, 0x204, 0x202] := by decide
theorem test_jpV0_above_4095 :
    (after (exec (.jpV0 0xFFF) { small 0 0 0 with v := State.reset.v.set 0 0xFF })).pc = 0x10FE := by decide
theorem test_fetch_above_4095_faults : fault (after (step { small 0 0 0 with pc := 0x10FE })) = (.bounds, 0x10FE) := by
  decide
theorem test_ldImm : (stepWord (small 0 0 0) 0x6A7F).reg 0xA = 0x7F := by decide
theorem test_addImm_wraps_without_flag :
    let t := stepWord (small 2 0 7) 0x71FF; t.reg 1 = 1 ∧ t.reg 15 = 7 := by decide
theorem test_ldReg : (stepWord (small 0 0x33 0) 0x8120).reg 1 = 0x33 := by decide
theorem test_logic :
    (stepWord (small 0xF0 0x0F 7) 0x8121).reg 1 = 0xFF ∧ (stepWord (small 0xF0 0x3C 7) 0x8122).reg 1 = 0x30 ∧
    (stepWord (small 0xFF 0x0F 7) 0x8123).reg 1 = 0xF0 ∧ (stepWord (small 0xFF 0x0F 7) 0x8123).reg 15 = 7 := by decide
theorem test_addReg : let t := stepWord (small 0xFF 1 0) 0x8124; t.reg 1 = 0 ∧ t.reg 15 = 1 := by decide
theorem test_addReg_to_vf_keeps_flag : (stepWord (small 1 0 0xFF) 0x8F14).reg 15 = 1 := by decide
theorem test_subReg : let t := stepWord (small 5 7 9) 0x8125; t.reg 1 = 0xFE ∧ t.reg 15 = 0 := by decide
theorem test_subReg_equal : let t := stepWord (small 7 7 9) 0x8125; t.reg 1 = 0 ∧ t.reg 15 = 1 := by decide
theorem test_shr : let t := stepWord (small 0x05 0xFF 9) 0x8126; t.reg 1 = 2 ∧ t.reg 15 = 1 ∧ t.reg 2 = 0xFF := by decide
theorem test_subnReg : let t := stepWord (small 5 7 9) 0x8127; t.reg 1 = 2 ∧ t.reg 15 = 1 := by decide
theorem test_shl : let t := stepWord (small 0x81 0xFF 9) 0x812E; t.reg 1 = 2 ∧ t.reg 15 = 1 := by decide
theorem test_unknown_is_a_no_op :
    let s := (small 1 2 3).withFetchWord 16 0x8128
    after (step s) = { s with pc := 0x202 } ∧ stepReturn s = some (.done false (some ⟨0x8128, 0x200⟩)) := by decide
theorem test_ldI : (stepWord (small 0 0 0) 0xA123).i = 0x123 := by decide
theorem test_rnd_masks_with_zero : (after (exec (.rnd 1 0) (small 9 0 7))).draws = 1 := by decide
theorem test_skp_sknp :
    let s := { small 3 0 0 with key := State.reset.key.set 3 true }
    (after (exec (.skp 1) s)).pc = 0x204 ∧ (after (exec (.sknp 1) s)).pc = 0x202 := by decide
theorem test_ldVxDt : (after (exec (.ldVxDt 1) { small 0 0 0 with dt := 0x2A })).reg 1 = 0x2A := by decide
theorem test_ldDtVx : (stepWord (small 0x10 0 0) 0xF115).dt = 0x10 := by decide
theorem test_ldStVx : (stepWord (small 0x10 0 0) 0xF118).st = 0x10 := by decide
theorem test_ldVxK_E11 :
    let s := small 0 0 0
    exec (.ldVxK 1) s = .next s ∧
    (after (exec (.ldVxK 1) { s with key := (s.key.set 7 true).set 9 true })).reg 1 = 7 := by
  refine ⟨rfl, by decide⟩
theorem test_addI_wraps : (after (exec (.addI 1) { small 2 0 7 with i := 0xFFFF })).i = 1 := by decide
theorem test_ldF : (stepWord (small 0x0A 0 0) 0xF129).i = 50 ∧ (stepWord (small 255 0 0) 0xF129).i = 1275 := by decide
theorem test_block_store :
    (after (exec (.ldMemVx 2) { small 2 3 0 with i := 0x300 })).mem = [(0x301, 2), (0x302, 3)] := by decide
theorem test_block_store_faults : fault (after (exec (.ldMemVx 15) { small 2 3 0 with i := 0x0FF1 })) = (.bounds, 0x1000) := by
  decide
theorem test_block_load :
    let t := after (exec (.ldVxMem 2) { small 9 9 9 with i := 0x300, mem := [(0x300, 2), (0x301, 5), (0x302, 5)] })
    t.reg 0 = 2 ∧ t.reg 1 = 5 ∧ t.reg 2 = 5 ∧ t.reg 15 = 9 := by decide
theorem test_latched_step_stops : step { small 0 0 0 with flt := ⟨.bounds, 4096⟩ } = .fault (.latched .bounds 4096) := by
  rfl

/-! ### Open parameters (R10, decisions D1, D26, D27) -/

/-- `KEYIDX_POLICY` "mask to 4 bits". -/
def masked : Params :=
  { Params.default with keyIdx := fun number key => .held (key[number.toNat % 16]'(Nat.mod_lt _ (by decide))) }

/-- `KEYSEL` "highest". -/
def highest : Params := { Params.default with keySel := fun key => (List.finRange 16).reverse.find? fun j => key[j.val] }

/-- An `OPMAP` with RET alone, at another word. -/
def returnAtFF : OpMap := ⟨[], [⟨"RET", 0x0, .low 0xFF, fun _ => .ret, (fun | .ret => some 0 | _ => none)⟩]⟩

theorem test_masked_key_index :
    let s := { small 0x13 0 0 with key := State.reset.key.set 3 true }
    (after (execWith masked (.skp 1) s)).pc = 0x204 ∧ (after (execWith masked (.sknp 1) s)).pc = 0x202 := by decide
theorem test_highest_key :
    let s := { small 0 0 0 with key := (State.reset.key.set 7 true).set 9 true }
    (after (execWith highest (.ldVxK 1) s)).reg 1 = 9 := by decide
theorem test_other_opcode_map :
    decodeWord 0x00FF returnAtFF = some .ret ∧ decodeWord 0x00EE returnAtFF = none ∧ encode .ret returnAtFF = 0x00FF ∧
    fault (after (stepWith { Params.default with opmap := returnAtFF } ((small 0 0 0).withFetchWord 16 0x00FF))) =
      (.stackUnderflow, 0x200) := by decide

/-! ### Host calls and outputs -/

theorem test_tick_E8 : let t := tickTimers { small 0 0 0 with dt := 2 }; t.dt = 1 ∧ t.st = 0 := by decide
theorem test_load_program :
    loadProgram [0x60, 0x05] State.reset = .ok { State.reset with mem := [(0x200, 0x60), (0x201, 0x05)], pc := 0x200 } := by
  decide
theorem test_common_font_glyph_1 : Memory.readBytes (placeFont commonFont State.reset).mem 5 5 = [0x20, 0x60, 0x20, 0x20, 0x70] := by
  decide
theorem test_fault_port : faultPort { small 0 0 0 with flt := ⟨.stackUnderflow, 0x200⟩ } = 0x30200 := by decide
theorem test_double_dabble : doubleDabble 255 = 0x255 ∧ doubleDabble 99 = 0x099 ∧ bcd12 128 = 0x128 := by decide
theorem test_port_transfers_bcd :
    blockTransfers 0xF133 { small 255 0 0 with i := 0x300 } =
      [.cmd 0xF133, .rfRdA 1 255, .idx 0x300, .memWr 0x300 2, .memWr 0x301 5, .memWr 0x302 5,
       .rsp ⟨true, false, false⟩] := by decide
theorem test_latched_block_makes_no_transfer :
    blockTransfers 0xF133 { small 255 0 0 with i := 0x300, flt := ⟨.bounds, 4096⟩ } = [] := by decide

/-! ### Witnesses: a state and operands that meet the hypotheses of each statement, at the boundaries of its clauses -/

theorem witness_DecodeOfEncode : (Instr.drw 15 0 15).wf = true := by decide

theorem witness_EncodeOfDecodeDropsIgnoredBitsOnly :
    decodeWord 0x0FE0 = some .cls ∧ decodeWord 0x0FEE = some .ret ∧ decodeWord 0x512F = some (.seReg 1 2) ∧
    decodeWord 0x912F = some (.sneReg 1 2) ∧ decodeWord 0xDFFF = some (.drw 15 15 15) := by decide

theorem witness_UnknownOpcodes :
    let s := { small 0 0 0 with pc := 4094 }
    s.Running ∧ s.pc.toNat ≤ 4094 ∧ decodeWord s.fetchWord = none := by
  refine ⟨rfl, by decide, by decide⟩

theorem witness_BlockClaims :
    claimed 0x1234 = false ∧ claimed 0xF034 = false ∧
    State.reset.Running ∧
    commandEffect .cls State.reset = some (.done { State.reset with fb := Display.clear }) ∧
    commandEffect (.bcd 1) { small 0 0 0 with i := 0xFFFF } = some (.fault (.bounds 0xFFFF)) := by
  refine ⟨by decide, by decide, rfl, rfl, rfl⟩

theorem witness_RowsSelectByMaskAndNeverTwice : opmap.map (fun r => r.mnemonic) ≠ [] := by decide

theorem witness_StepRunsDecodedInstruction :
    let s := { small 0 0 0 with pc := 4094, mem := [(4094, 0x12)] }
    s.Running ∧ s.pc.toNat ≤ 4094 ∧ (Instr.jp 0x200).wf = true ∧
    decode [s.mem.read s.pc.toNat, s.mem.read (s.pc.toNat + 1)] = .ok (.jp 0x200, []) := by
  refine ⟨rfl, by decide, rfl, by decide⟩

theorem witness_FetchBoundsAndByteOrder :
    ({ small 0 0 0 with pc := 4095 } : State).Running ∧ ({ small 0 0 0 with pc := 4095 } : State).pc.toNat + 1 > 4095 ∧
    ({ small 0 0 0 with pc := 4094 } : State).pc.toNat + 1 ≤ 4095 := by
  refine ⟨rfl, by decide, by decide⟩

/-- A state with StackUnderflow latched. -/
def dead : State := { small 0 0 0 with flt := ⟨.stackUnderflow, 0x200⟩ }

theorem witness_LatchedFaultIsFinal :
    ¬ dead.Running ∧ applyHostCall (.setKey 15 true) dead = .ok { dead with key := dead.key.set 15 true } ∧
    HostCall.setKey 15 true ≠ .reset := by
  refine ⟨by unfold State.Running; decide, rfl, by decide⟩

theorem witness_LatchedBlockAcceptsNoCommand : ¬ dead.Running ∧ claimed 0xF133 = true := by
  refine ⟨by unfold State.Running; decide, by decide⟩

/-- RET about to run with an empty stack. -/
def returning : State := { small 0 0 0 with mem := [(0x201, 0xEE)] }

theorem witness_RaisedFaultChangesOnlyFlt :
    returning.Running ∧ step returning = .next { returning with flt := ⟨.stackUnderflow, 0x200⟩ } ∧
    ¬ ({ returning with flt := ⟨.stackUnderflow, 0x200⟩ } : State).Running := by
  refine ⟨rfl, rfl, by unfold State.Running; decide⟩

theorem witness_FaultsAsTabulated :
    (let s := { small 0 0 0 with pc := 4095 }
     s.Running ∧ s.pc.toNat ≥ 4095 ∧ step s = .next { s with flt := ⟨.bounds, 4096⟩ }) ∧
    (let s := { small 0 0 0 with sp := 16 }
     s.Running ∧ exec (.call 0) s = .next { s with flt := ⟨.stackOverflow, 0x200⟩ }) := by
  refine ⟨⟨rfl, by decide, rfl⟩, rfl, rfl⟩

theorem witness_RedrawReportedByCompletedDrawOnly :
    stepReturn ((sprite 0 0 0).withFetchWord 16 0xD000) = some (.done true none) ∧
    decodeWord ((sprite 0 0 0).withFetchWord 16 0xD000).fetchWord = some (.drw 0 0 0) := by decide

theorem witness_OpenParametersActWhereNamed :
    (let s := { small 0 0 0 with pc := 4094 }
     s.Running ∧ s.pc.toNat ≤ 4094) ∧
    (∀ x, Instr.cls ≠ .skp x ∧ Instr.cls ≠ .sknp x) ∧ (∀ x, Instr.cls ≠ .ldVxK x) := by
  refine ⟨⟨rfl, by decide⟩, by decide, by decide⟩

theorem witness_ResetZeroesEverything :
    applyHostCall (.loadProgram []) State.reset = .ok { State.reset with pc := 0x200 } := by rfl

theorem witness_StepKeepsInvariant :
    returning.Inv ∧ step returning = .next { returning with flt := ⟨.stackUnderflow, 0x200⟩ } := by
  refine ⟨⟨by decide, rfl⟩, rfl⟩

theorem witness_HostCallsKeepInvariant :
    dead.Inv ∧ applyHostCall (.loadProgram [1]) dead = .ok { dead with mem := [(0x200, 1)], pc := 0x200 } := by
  refine ⟨⟨by decide, rfl⟩, by decide⟩

/-- A run that places a font and then loads a program, in that order alone. -/
theorem witness_EveryRunMeetsInvariant :
    Reachable { placeFont commonFont State.reset with pc := 0x200 } :=
  ⟨.loaded, .move (.move .reset (.placeFont commonFont)) (.call (.loadProgram []) rfl)⟩

theorem witness_HostWritesMemoryByLoadProgramAlone :
    (let t := { State.reset with mem := [(0x200, 0x60)], pc := 0x200 }
     applyHostCall (.loadProgram [0x60]) State.reset = .ok t ∧ t.mem ≠ State.reset.mem) ∧
    Move Params.default .fresh State.reset .fresh (placeFont commonFont State.reset) ∧
    (placeFont commonFont State.reset).mem ≠ State.reset.mem ∧ State.reset.mem.wf = true := by
  refine ⟨by decide, .placeFont commonFont, by decide, rfl⟩

/-- CLS about to run on a lit display. -/
def clearing : State := { small 0 0 0 with fb := Vector.replicate 32 1, mem := [(0x201, 0xE0)] }

theorem witness_OnlyDrawClearResetWriteDisplay :
    step clearing = .next { clearing with fb := Display.clear, pc := 0x202 } ∧ Display.clear ≠ clearing.fb ∧
    applyHostCall .reset clearing = .ok State.reset ∧ State.reset.fb ≠ clearing.fb := by
  refine ⟨rfl, by decide, rfl, by decide⟩

/-- Each clause's change happens: I, stack and SP, DT, ST, memory, the draw counter. -/
theorem witness_OnlyNamedInstructionsWrite :
    (stepWord (small 1 0 0) 0xA123).i ≠ (small 1 0 0).i ∧ (stepWord (small 1 0 0) 0x2300).stack ≠ (small 1 0 0).stack ∧
    (stepWord (small 1 0 0) 0x2300).sp ≠ (small 1 0 0).sp ∧ (stepWord (small 1 0 0) 0xF115).dt ≠ (small 1 0 0).dt ∧
    (stepWord (small 1 0 0) 0xF118).st ≠ (small 1 0 0).st ∧
    (stepWord (small 1 0 0) 0xF133).mem ≠ ((small 1 0 0).withFetchWord 16 0xF133).mem ∧
    (stepWord (small 1 0 0) 0xC100).draws ≠ (small 1 0 0).draws := by decide

theorem witness_DisplayIsSeenThroughCollisionFlagOnly :
    step clearing = .next { clearing with fb := Display.clear, pc := 0x202 } ∧
    ¬ ∃ x y n, decodeWord clearing.fetchWord = some (.drw x y n) := by
  refine ⟨rfl, ?_⟩
  have h : decodeWord clearing.fetchWord = some .cls := by decide
  rintro ⟨x, y, n, e⟩
  rw [h] at e
  cases e

theorem witness_DrawMatchesClosedForm :
    SpriteInMemory { sprite 0xFF 0 0 with i := 0x0FF1 } 15 ∧ SpriteInMemory { sprite 0xFF 0 0 with i := 0xFFFF } 0 := by
  refine ⟨.inr (by decide), .inl rfl⟩

theorem witness_DrawFaultsExactlyBeyondMemory :
    (let s := { sprite 0xFF 0 0 with i := 0x0FF2 }
     s.Running ∧ (15 : Fin 16).val ≥ 1 ∧ s.i.toNat + (15 : Fin 16).val - 1 > 4095) ∧
    SpriteInMemory { sprite 0xFF 0 0 with i := 0x0FF1 } 15 := by
  refine ⟨⟨rfl, by decide, by decide⟩, .inr (by decide)⟩

theorem witness_DrawOfNoRows : ({ sprite 0xFF 0 0 with i := 0xFFFF } : State).Running := rfl

theorem witness_DrawTwiceRestores :
    let s := sprite 0xF0 1 2
    let t := after (exec (.drw 1 2 1) s)
    SpriteInMemory s 1 ∧ SpriteInMemory t 1 ∧ exec (.drw 1 2 1) s = .next t ∧
    (t.reg 1).toNat % 64 = (s.reg 1).toNat % 64 ∧ (t.reg 2).toNat % 32 = (s.reg 2).toNat % 32 ∧
    ∀ r : Nat, r < (1 : Fin 16).val → t.mem.read (t.i.toNat + r) = s.mem.read (s.i.toNat + r) := by
  refine ⟨.inr (by decide), .inr (by decide), rfl, by decide, by decide, fun _ _ => rfl⟩

theorem witness_DrawChangesOneCellPerSpriteBit :
    SpriteInMemory (sprite 0xF0 1 2) 1 ∧
    exec (.drw 1 2 1) (sprite 0xF0 1 2) = .next (after (exec (.drw 1 2 1) (sprite 0xF0 1 2))) := by
  refine ⟨.inr (by decide), rfl⟩

theorem witness_SpriteBitsLandApart :
    (14 : Nat) < 15 ∧ (7 : Nat) < 8 ∧ columnOf 63 7 = columnOf 63 7 ∧ rowOf 31 14 = rowOf 31 14 := by decide

theorem witness_ClearTurnsEveryCellOff : clearing.Running := rfl

theorem witness_ClearThenDrawShowsSpriteAlone : SpriteInMemory { clearing with i := 0x0FF1 } 15 := .inr (by decide)

theorem witness_BcdStoresThreeDigits :
    (let s := { small 255 0 0 with i := 4093 }
     s.mem.wf = true ∧ s.i.toNat + 2 ≤ 4095 ∧ s.Running) ∧
    (let s := { small 255 0 0 with i := 4094 }
     s.mem.wf = true ∧ s.i.toNat + 2 > 4095 ∧ s.Running) := by
  refine ⟨⟨by decide, by decide, rfl⟩, by decide, by decide, rfl⟩

theorem witness_DigitsAreTheDecimalDigits : 100 * 2 + 10 * 5 + 5 = (255 : Byte).toNat := by decide

theorem witness_BlockLoadAfterBcdGivesDigits :
    let s := { small 255 0 0 with i := 4093 }
    s.mem.wf = true ∧ s.i.toNat + 2 ≤ 4095 := by decide

theorem witness_PortTransfersAccountForCommand :
    decodeWord 0xF133 = some (.bcd 1) ∧
    blockCommand (.bcd 1) { small 255 0 0 with i := 4094 } = some (.fault (.bounds 4096)) ∧
    blockCommand .cls clearing = some (.done { clearing with fb := Display.clear }) ∧
    decodeWord 0x00E0 = some .cls := by
  refine ⟨by decide, by decide, rfl, by decide⟩

theorem witness_BlockStoreCopiesRegisters :
    (let s := { small 1 2 3 with i := 0x0FF0 }
     s.mem.wf = true ∧ s.i.toNat + (15 : RegIx).val ≤ 4095) ∧
    (let s := { small 1 2 3 with i := 0x0FF1 }
     s.i.toNat + (15 : RegIx).val > 4095 ∧ s.Running) := by
  refine ⟨by decide, by decide, rfl⟩

theorem witness_BlockLoadCopiesMemory :
    (let s := { small 1 2 3 with i := 0x0FFF }
     s.i.toNat + (0 : RegIx).val ≤ 4095) ∧
    (let s := { small 1 2 3 with i := 0x1000 }
     s.i.toNat + (0 : RegIx).val > 4095 ∧ s.Running) := by
  refine ⟨by decide, by decide, rfl⟩

theorem witness_AddAndSubtractWithFlag : (14 : RegIx) ≠ 15 := by decide

theorem witness_ShiftsWithFlag : (0 : RegIx) ≠ 15 := by decide

theorem witness_CallPushesReturnAddress :
    ({ small 0 0 0 with sp := 15 } : State).sp.val < 16 ∧ ({ small 0 0 0 with sp := 16 } : State).sp.val = 16 ∧
    ({ small 0 0 0 with sp := 16 } : State).Running := by
  refine ⟨by decide, by decide, rfl⟩

theorem witness_ReturnPopsIntoPc :
    ({ small 0 0 0 with sp := 16 } : State).sp.val = (15 : Fin 16).val + 1 ∧
    ({ small 0 0 0 with sp := 1 } : State).sp.val = (0 : Fin 16).val + 1 ∧
    (small 0 0 0).sp.val = 0 ∧ (small 0 0 0).Running := by
  refine ⟨by decide, by decide, rfl, rfl⟩

theorem witness_CallThenReturnComesBack : ({ small 0 0 0 with sp := 15 } : State).sp.val < 16 := by decide

theorem witness_SixteenCallsThenOverflow :
    (small 0 0 0).Running ∧ (small 0 0 0).sp = 0 ∧ (List.replicate 16 (0x200 : Addr12)).length = 16 := by
  refine ⟨rfl, rfl, by decide⟩

theorem witness_SkipIfsMovePcByFourOrTwo :
    (small 5 6 0).reg 1 = 5 ∧ (small 5 6 0).reg 1 ≠ 6 ∧ (small 5 5 0).reg 1 = (small 5 5 0).reg 2 ∧
    (small 5 6 0).reg 1 ≠ (small 5 6 0).reg 2 := by decide

theorem witness_KeySkips :
    ((small 15 16 0).reg 1).toNat = (15 : Fin 16).val ∧ ((small 15 16 0).reg 2).toNat > 15 := by decide

theorem witness_KeySkipsUnderEveryPolicy :
    ((small 15 16 0).reg 1).toNat ≤ 15 ∧ ((small 15 16 0).reg 2).toNat > 15 ∧ (small 15 16 0).Running ∧
    masked.keyIdx ((small 15 16 0).reg 2) (small 15 16 0).key = .held false ∧
    ({ Params.default with keyIdx := fun _ _ => .boundsError } : Params).keyIdx 16 (small 15 16 0).key = .boundsError ∧
    Params.default.keyIdx 16 (small 15 16 0).key = .refused := by
  refine ⟨by decide, by decide, rfl, by decide, rfl, rfl⟩

theorem witness_WaitForKeyReportsLowestHeld :
    (∀ j : Fin 16, (small 0 0 0).key[j.val] = false) ∧
    (let s := { small 0 0 0 with key := (State.reset.key.set 3 true).set 15 true }
     s.key[(3 : Fin 16).val] = true ∧ ∀ k : Fin 16, k < 3 → s.key[k.val] = false) := by decide

theorem witness_WaitForKeyUnderEveryChoice :
    (∀ key : Vector Bool 16, ∀ j : Fin 16, Params.default.keySel key = some j → key[j.val] = true) ∧
    (∀ key : Vector Bool 16, Params.default.keySel key = none → ∀ j : Fin 16, key[j.val] = false) :=
  ⟨fun _ _ h => lowestHeld_eq_some h, fun _ h => lowestHeld_eq_none_iff.1 h⟩

theorem witness_LoadProgramCopiesBytes :
    (small 0 0 0).mem.wf = true ∧ (List.replicate 3584 (1 : Byte)).length ≤ 3584 ∧
    (List.replicate 3585 (1 : Byte)).length > 3584 := by
  refine ⟨rfl, by rw [List.length_replicate], by rw [List.length_replicate]; decide⟩

theorem witness_SetKeySetsOneKey : (15 : Nat) < 16 ∧ 16 ≤ (16 : Nat) := by decide

theorem witness_BootStartsProgramFromReset : (List.replicate 3584 (1 : Byte)).length ≤ 3584 := by
  rw [List.length_replicate]

end Sys2Proof.Tests
end

section
/-! PROOF. The state family: who writes the display, and the values after reset (spec/10_state.md). -/

namespace Sys2Proof.Machine

/-! ### The writers of the display (R22) -/

/-- A completed instruction other than DRW and CLS leaves the display alone. -/
theorem Footprint.fb_eq_or_cls_or_drw {i : Instr} {s t : State} (h : Footprint i s t) :
    t.fb = s.fb ∨ i = .cls ∨ ∃ x y n, i = .drw x y n := by
  cases i with
  | drw x y n => exact .inr (.inr ⟨x, y, n, rfl⟩)
  | cls => exact .inr (.inl rfl)
  | jp => cases h; exact .inl rfl
  | ldVxK => obtain rfl | ⟨_, rfl⟩ := h <;> exact .inl rfl
  | ret | call => obtain ⟨_, _, rfl⟩ := h; exact .inl rfl
  | _ => obtain ⟨_, rfl⟩ := h; exact .inl rfl

/-- An instruction that changes the display is DRW or CLS: taking a fault does not touch it. -/
theorem exec_cls_or_drw_of_fb_ne {i : Instr} {s t : State} (h : exec i s = .next t) (hne : t.fb ≠ s.fb) :
    i = .cls ∨ ∃ x y n, i = .drw x y n := by
  obtain hfoot | ⟨e, -, rfl⟩ := exec_cases h
  · exact hfoot.fb_eq_or_cls_or_drw.resolve_left hne
  · exact absurd (State.raise_fb s e) hne

/-- A step that changes the display fetched DRW or CLS. -/
theorem step_cls_or_drw_of_fb_ne {s t : State} (h : step s = .next t) (hne : t.fb ≠ s.fb) :
    decodeWord s.fetchWord = some .cls ∨ ∃ x y n, decodeWord s.fetchWord = some (.drw x y n) := by
  obtain ⟨-, ⟨-, rfl⟩ | ⟨-, -, rfl⟩ | ⟨i, -, hdec, hexec⟩⟩ := step_cases h
  · exact absurd (State.raise_fb s _) hne
  · exact absurd (State.advance_fb s) hne
  · obtain rfl | ⟨x, y, n, rfl⟩ := exec_cls_or_drw_of_fb_ne hexec hne
    · exact .inl hdec
    · exact .inr ⟨x, y, n, hdec⟩

/-- Of the host calls only `reset()` changes the display. -/
theorem applyHostCall_eq_reset_of_fb_ne {c : HostCall} {s t : State} (h : applyHostCall c s = .ok t)
    (hne : t.fb ≠ s.fb) : c = .reset := by
  obtain ⟨bytes, -, -, rfl⟩ | ⟨-, rfl⟩ | ⟨index, pressed, -, -, ht⟩ | ⟨hc, -⟩ := applyHostCall_cases h
  · exact absurd rfl hne
  · exact absurd rfl hne
  · exact absurd (congrArg State.fb ht) hne
  · exact hc

/-- Settles O18, through the footprint of an instruction and the cases of a host call. -/
theorem onlyDrawClearResetWriteDisplay : Obligations.OnlyDrawClearResetWriteDisplay :=
  ⟨fun _ _ => step_cls_or_drw_of_fb_ne, fun _ _ _ => applyHostCall_eq_reset_of_fb_ne⟩

/-! ### The state after reset (R41 to R43) -/

/-- Every linear index of a cleared display reads an off cell (R21, R42). -/
@[simp] theorem Display.at_clear (k : Fin 2048) : Display.at Display.clear k = false :=
  Display.cell_clear _ _

/-- Reset turns every cell off, as CLS does (R42, R125). -/
@[simp] theorem State.reset_fb : State.reset.fb = Display.clear := rfl

@[simp] theorem State.reg_reset (x : RegIx) : State.reset.reg x = 0 :=
  Vector.getElem_replicate x.isLt

/-- A program that is loaded starts at 0x200 (R43, R198). -/
theorem pc_of_applyHostCall_loadProgram {bytes : List Byte} {s t : State}
    (h : applyHostCall (.loadProgram bytes) s = .ok t) : t.pc = 0x200 := by
  obtain ⟨_, -, -, rfl⟩ | ⟨⟨⟩, -⟩ | ⟨_, _, ⟨⟩, -⟩ | ⟨⟨⟩, -⟩ := applyHostCall_cases h
  rfl

/-- Settles O13: the reset state is written out field by field, and the host call answers it from any state. -/
theorem resetZeroesEverything : Obligations.ResetZeroesEverything := by
  have hfb (k : Fin 2048) : Display.at State.reset.fb k = false := by rw [State.reset_fb, Display.at_clear]
  have hstack (j : Fin 16) : State.reset.stack[j.val] = 0 := Vector.getElem_replicate j.isLt
  have hkey (j : Fin 16) : State.reset.key[j.val] = false := Vector.getElem_replicate j.isLt
  exact ⟨hfb, State.reg_reset, rfl, rfl, rfl, hstack, rfl, rfl, hkey, Memory.read_nil, rfl,
    fun _ _ _ => pc_of_applyHostCall_loadProgram, fun s => ⟨s.draws, rfl⟩⟩

end Sys2Proof.Machine
end

section
/-! PROOF. The encoding family: the words that decode to nothing, and the step that fetches one (spec/30_encoding.md). -/

namespace Sys2Proof

/-! ### Dispatch in two stages: `n4`, then the secondary key (R89) -/

@[simp] theorem SubKey.selects_none (w : Word) : SubKey.none.selects w = true := rfl

@[simp] theorem SubKey.selects_n1_eq_false_iff (k : Nat) (w : Word) :
    (SubKey.n1 k).selects w = false ↔ w.toNat % 16 ≠ k := beq_eq_false_iff_ne

@[simp] theorem SubKey.selects_low_eq_false_iff (b : Nat) (w : Word) :
    (SubKey.low b).selects w = false ↔ w.toNat % 256 ≠ b := beq_eq_false_iff_ne

/-- The secondary keys of the rows that share a primary key. -/
def OpMap.familyKeys (om : OpMap) (n4 : Nat) : List SubKey := (om.rows.filter fun r => n4 == r.n4).map OpRow.sub

/-- A word decodes to nothing exactly when no secondary key of its `n4` selects it. -/
theorem decodeWord_eq_none_iff (w : Word) (om : OpMap) :
    decodeWord w om = none ↔ ∀ k ∈ om.familyKeys (w.toNat / 4096), k.selects w = false := by
  rw [decodeWord, Option.map_eq_none_iff, List.find?_eq_none]
  simp only [OpMap.familyKeys, OpRow.selects, List.forall_mem_map, List.mem_filter, Bool.and_eq_true, not_and,
    Bool.not_eq_true, and_imp]

/-- The block claims no word that decodes to nothing: its rows are rows of the map (R88). -/
theorem claimed_of_decodeWord_eq_none {w : Word} {om : OpMap} (h : decodeWord w om = none) : claimed w om = false := by
  rw [decodeWord, Option.map_eq_none_iff, List.find?_eq_none] at h
  rw [claimed, List.any_eq_false]
  exact fun r hr => h r (List.mem_append_left _ hr)

/-! ### The families of the default map (R91 to R94) -/

theorem familyKeys_default_0 : OpMap.default.familyKeys 0x0 = [.low 0xE0, .low 0xEE] := rfl

theorem familyKeys_default_8 : OpMap.default.familyKeys 0x8 =
    [.n1 0x0, .n1 0x1, .n1 0x2, .n1 0x3, .n1 0x4, .n1 0x5, .n1 0x6, .n1 0x7, .n1 0xE] := rfl

theorem familyKeys_default_E : OpMap.default.familyKeys 0xE = [.low 0x9E, .low 0xA1] := rfl

theorem familyKeys_default_F : OpMap.default.familyKeys 0xF =
    [.low 0x33, .low 0x07, .low 0x0A, .low 0x15, .low 0x18, .low 0x1E, .low 0x29, .low 0x55, .low 0x65] := rfl

/-- Every other family is one row with no secondary key. -/
theorem familyKeys_default_single : ∀ n4 < 16, n4 ∉ [0x0, 0x8, 0xE, 0xF] → OpMap.default.familyKeys n4 = [.none] := by
  decide

/-- The unknown words of the default map, family by family (R99). -/
theorem decodeWord_default_eq_none_iff (w : Word) : decodeWord w = none ↔
    (w.toNat / 4096 = 0x0 ∧ w.toNat % 256 ≠ 0xE0 ∧ w.toNat % 256 ≠ 0xEE) ∨
    (w.toNat / 4096 = 0x8 ∧ w.toNat % 16 ∈ [0x8, 0x9, 0xA, 0xB, 0xC, 0xD, 0xF]) ∨
    (w.toNat / 4096 = 0xE ∧ w.toNat % 256 ≠ 0x9E ∧ w.toNat % 256 ≠ 0xA1) ∨
    (w.toNat / 4096 = 0xF ∧ w.toNat % 256 ∉ [0x07, 0x0A, 0x15, 0x18, 0x1E, 0x29, 0x33, 0x55, 0x65]) := by
  rw [decodeWord_eq_none_iff]
  have hn4 : w.toNat / 4096 < 16 := by omega
  by_cases hfamily : w.toNat / 4096 ∈ [0x0, 0x8, 0xE, 0xF]
  · simp only [List.mem_cons, List.not_mem_nil, or_false] at hfamily ⊢
    obtain h | h | h | h := hfamily
    · simp [h, familyKeys_default_0]
    · simp only [h, familyKeys_default_8, List.forall_mem_cons, SubKey.selects_n1_eq_false_iff, List.not_mem_nil,
        false_imp_iff, implies_true, and_true, true_and]
      omega
    · simp [h, familyKeys_default_E]
    · simp only [h, familyKeys_default_F, List.forall_mem_cons, SubKey.selects_low_eq_false_iff, List.not_mem_nil,
        false_imp_iff, implies_true, and_true, true_and]
      omega
  · rw [familyKeys_default_single _ hn4 hfamily]
    simp only [List.mem_cons, List.not_mem_nil, or_false, not_or] at hfamily
    obtain ⟨h0, h8, hE, hF⟩ := hfamily
    simp [h0, h8, hE, hF]

end Sys2Proof

namespace Sys2Proof.Machine

/-! ### The step that fetches an unknown word (R197) -/

/-- The fetch of a running machine is inside memory up to `PC` 4094, and finds an unknown word as such (R161). -/
theorem fetchDecode_of_decodeWord_eq_none {s : State} (hrun : s.Running) (hpc : s.pc.toNat ≤ 4094)
    (hd : decodeWord s.fetchWord = none) : fetchDecode s = .unknown s.fetchWord :=
  fetchDecode_of_unknown hrun ((fits_iff _ _).2 (.inr (by omega))) hd

@[simp] theorem Params.default_opmap : Params.default.opmap = OpMap.default := rfl

/-- An unknown word moves `PC` past it and changes nothing else, whatever the word. -/
theorem step_of_fetchDecode_unknown {s : State} {w : Word} (h : fetchDecode s = .unknown w) :
    step s = .next s.advance := by
  simp only [step, stepWith, Params.default_opmap, h, unknownOpcode]

/-- The step reports the unknown word with the `PC` it stood at. -/
theorem stepReturn_of_fetchDecode_unknown {s : State} {w : Word} (h : fetchDecode s = .unknown w) :
    stepReturn s = some (.done false (some ⟨w, s.pc⟩)) := by
  simp only [stepReturn, Params.default_opmap, h]

/-- Settles O4, by the two stages of dispatch and the fetch of an unknown word. -/
theorem unknownOpcodes : Obligations.UnknownOpcodes := by
  refine ⟨decodeWord_default_eq_none_iff, fun w => claimed_of_decodeWord_eq_none, fun s hrun hpc hd => ?_⟩
  have hfetch := fetchDecode_of_decodeWord_eq_none hrun hpc hd
  exact ⟨step_of_fetchDecode_unknown hfetch, stepReturn_of_fetchDecode_unknown hfetch⟩

end Sys2Proof.Machine
end

section
/-! PROOF. The display family: when DRW completes, the draw of no rows, the clear, and which steps report a redraw
(spec/40_sprite_draw.md). -/

namespace Sys2Proof.Machine

/-! ### DRW completes or faults (R117) -/

/-- The bounds check of DRW is the statements' condition on its sprite (R117, R118). -/
theorem spriteInMemory_iff_fits (s : State) (n : Fin 16) : SpriteInMemory s n ↔ fits s.i.toNat n.val = true := by
  rw [fits_iff, SpriteInMemory]; omega

/-- A DRW whose sprite lies in memory completes inside its footprint. -/
theorem exec_drw_of_spriteInMemory {s : State} {n : Fin 16} (h : SpriteInMemory s n) (x y : RegIx) :
    ∃ t : State, exec (.drw x y n) s = .next t ∧ Footprint (.drw x y n) s t := by
  rw [spriteInMemory_iff_fits] at h
  rw [exec, execDrw, drwCommand_of_fits h]
  exact ⟨_, rfl, _, _, rfl⟩

/-- Any other DRW takes the bounds fault. -/
theorem exec_drw_of_not_spriteInMemory {s : State} {n : Fin 16} (h : ¬ SpriteInMemory s n) (x y : RegIx) :
    exec (.drw x y n) s = .next (s.raise (.bounds (firstOutside s.i.toNat))) := by
  rw [spriteInMemory_iff_fits, Bool.not_eq_true] at h
  rw [exec, execDrw, drwCommand_of_not_fits h, completeCommand_fault]

/-- A fault leaves no machine running. -/
theorem State.not_running_raise (s : State) (e : Trap) : ¬ (s.raise e).Running := by
  by_cases h : s.flt.kind = .none
  · rw [State.Running, State.raise_flt_of_running h]
    exact Trap.record_kind_ne_none e s.pc
  · rwa [State.raise_of_latched h]

/-- A completed instruction leaves a running machine running. -/
theorem Footprint.running {i : Instr} {s t : State} (h : Footprint i s t) (hs : s.Running) : t.Running := by
  rw [State.Running, h.flt]; exact hs

/-- From a running machine DRW leaves the machine running exactly when its sprite lies in memory. -/
theorem exec_drw_running_iff {s : State} (hs : s.Running) (x y : RegIx) (n : Fin 16) :
    (∃ t : State, exec (.drw x y n) s = .next t ∧ t.Running) ↔ SpriteInMemory s n := by
  constructor
  · rintro ⟨t, hexec, ht⟩
    by_contra h
    rw [exec_drw_of_not_spriteInMemory h] at hexec
    cases hexec
    exact State.not_running_raise _ _ ht
  · intro h
    obtain ⟨t, hexec, hfoot⟩ := exec_drw_of_spriteInMemory h x y
    exact ⟨t, hexec, hfoot.running hs⟩

/-! ### What an instruction returns (R123) -/

theorem returnOf_next_of_running {t : State} (h : t.Running) (i : Instr) :
    returnOf i (.next t) = some (.done (redraws i) none) := if_pos h

theorem returnOf_next_of_not_running {t : State} (h : ¬ t.Running) (i : Instr) :
    returnOf i (.next t) = some .fault := if_neg h

theorem redraws_iff (i : Instr) : redraws i = true ↔ ∃ x y n, i = .drw x y n := by
  cases i <;> simp [redraws]

/-- A redraw is returned exactly by a drawing instruction whose next state runs on. -/
theorem returnOf_eq_redraw_iff (i : Instr) (a : Answer) (d : Option Diagnostic) :
    returnOf i a = some (.done true d) ↔ d = none ∧ redraws i = true ∧ ∃ t : State, a = .next t ∧ t.Running := by
  cases a with
  | next t =>
    by_cases ht : t.Running
    · simp [returnOf_next_of_running ht, ht, and_comm, eq_comm (a := d)]
    · simp [returnOf_next_of_not_running ht, ht]
  | fault r => simp [returnOf]
  | refused r => simp [returnOf]

/-- The fetch finds an instruction exactly when the machine runs, `PC` lies below 4095 and the word decodes to it. -/
theorem fetchDecode_eq_instr_iff (s : State) (om : OpMap) (i : Instr) :
    fetchDecode s om = .instr i ↔ s.Running ∧ s.pc.toNat ≤ 4094 ∧ decodeWord s.fetchWord om = some i := by
  have hpc : fits s.pc.toNat 2 = true ↔ s.pc.toNat ≤ 4094 := by rw [fits_iff]; omega
  rw [← hpc]
  by_cases hk : s.flt.kind = .none
  · cases hf : fits s.pc.toNat 2 with
    | false => simp [fetchDecode_of_outside hk hf]
    | true =>
      cases hd : decodeWord s.fetchWord om with
      | none => simp [fetchDecode_of_unknown hk hf hd]
      | some j => simp [fetchDecode_of_instr hk hf hd, State.Running, hk]
  · simp [fetchDecode_of_latched hk, State.Running, hk]

/-- Only a fetched instruction can report a redraw: no fault, refusal or unknown opcode does. -/
theorem stepReturn_eq_redraw_iff (s : State) (d : Option Diagnostic) :
    stepReturn s = some (.done true d) ↔
      ∃ i, fetchDecode s = .instr i ∧ returnOf i (exec i s) = some (.done true d) := by
  rw [stepReturn, Params.default_opmap]
  cases fetchDecode s <;> simp

/-- Settles O12: the step fetched an instruction, it draws, and its sprite lies in memory. -/
theorem redrawReportedByCompletedDrawOnly : Obligations.RedrawReportedByCompletedDrawOnly := by
  intro s d
  simp only [stepReturn_eq_redraw_iff, fetchDecode_eq_instr_iff, returnOf_eq_redraw_iff, redraws_iff]
  constructor
  · rintro ⟨_, ⟨hrun, hpc, hdec⟩, hd, ⟨x, y, n, rfl⟩, hexec⟩
    exact ⟨hd, hrun, hpc, x, y, n, hdec, (exec_drw_running_iff hrun x y n).1 hexec⟩
  · rintro ⟨hd, hrun, hpc, x, y, n, hdec, hsprite⟩
    exact ⟨_, ⟨hrun, hpc, hdec⟩, hd, ⟨x, y, n, rfl⟩, (exec_drw_running_iff hrun x y n).2 hsprite⟩

/-! ### DRW beyond memory, DRW of no rows, CLS (R117, R118, R125) -/

/-- Settles O22, by the two ways a DRW ends. -/
theorem drawFaultsExactlyBeyondMemory : Obligations.DrawFaultsExactlyBeyondMemory := by
  refine fun s x y n => ⟨fun hrun hn hout => ?_, fun h => ?_⟩
  · have h : ¬ SpriteInMemory s n := by rw [SpriteInMemory]; omega
    rw [exec_drw_of_not_spriteInMemory h]
    exact ⟨congrArg _ (State.raise_of_running hrun _), returnOf_next_of_not_running (State.not_running_raise _ _) _⟩
  · obtain ⟨t, hexec, hfoot⟩ := exec_drw_of_spriteInMemory h x y
    exact ⟨t, hexec, hfoot.flt⟩

/-- A DRW of no rows clears VF and moves `PC` on, whatever `I` holds (R118). -/
theorem exec_drw_zero (x y : RegIx) (s : State) : exec (.drw x y 0) s = .next (s.setReg vf 0).advance := by
  rw [exec, execDrw, drwCommand_of_fits (fits_zero _)]; rfl

/-- Settles O23, by the next state of a draw of no rows. -/
theorem drawOfNoRows : Obligations.DrawOfNoRows := by
  intro s x y
  rw [exec_drw_zero]
  have hother (j : RegIx) (hj : j ≠ 15) : (s.setReg vf 0).advance.reg j = s.reg j := by
    rw [State.reg_advance, State.reg_setReg_ne (x := vf) s 0 hj.symm]
  have hflag : (s.setReg vf 0).advance.reg 15 = 0 := State.reg_setReg_same s vf 0
  exact ⟨_, rfl, ⟨rfl, hother⟩, hflag, fun hrun => returnOf_next_of_running hrun _⟩

/-- CLS always completes: every cell off, `PC` on (R125). -/
theorem exec_cls (s : State) : exec .cls s = .next { s with fb := Display.clear, pc := s.pc + 2 } := rfl

/-- Settles O27, by the next state of CLS. -/
theorem clearTurnsEveryCellOff : Obligations.ClearTurnsEveryCellOff := fun s =>
  ⟨_, exec_cls s, rfl, Display.at_clear, fun hrun => returnOf_next_of_running hrun .cls⟩

end Sys2Proof.Machine
end

section
/-! PROOF. The BCD family: the digits on the result bus, a run of stored bytes read back, and the two ways a BCD ends
(spec/41_bcd.md). -/

namespace Sys2Proof.Machine

/-! ### The digits, and the bus that carries them (R141, R143) -/

@[simp] theorem hundreds_toNat (v : Byte) : (hundreds v).toNat = v.toNat / 100 := BitVec.toNat_udiv

@[simp] theorem tens_toNat (v : Byte) : (tens v).toNat = v.toNat / 10 % 10 := by simp [tens]

@[simp] theorem ones_toNat (v : Byte) : (ones v).toNat = v.toNat % 10 := BitVec.toNat_umod

/-- A digit passes through a nibble of the bus unchanged. -/
theorem setWidth_nibble_of_lt {d : Byte} (h : d.toNat < 16) : (d.setWidth 4).setWidth 8 = d := by
  apply BitVec.eq_of_toNat_eq
  simp only [BitVec.toNat_setWidth]
  omega

/-- The store unit takes the three nibbles of the bus apart, high one first. -/
theorem unpack_append (h t o : BitVec 4) :
    unpack (h ++ t ++ o) = [h.setWidth 8, t.setWidth 8, o.setWidth 8] := by
  have hhigh : (h ++ t ++ o).extractLsb' 8 4 = h := by
    rw [BitVec.extractLsb'_append_eq_of_le (by decide), BitVec.extractLsb'_append_eq_left]
  have hmid : (h ++ t ++ o).extractLsb' 4 4 = t := by
    rw [BitVec.extractLsb'_append_eq_of_le (by decide), BitVec.extractLsb'_append_eq_right]
  have hlow : (h ++ t ++ o).extractLsb' 0 4 = o := BitVec.extractLsb'_append_eq_right
  rw [unpack, hhigh, hmid, hlow]

/-- The bytes BCD stores are the three digits. -/
theorem unpack_bcd12 (v : Byte) : unpack (bcd12 v) = [hundreds v, tens v, ones v] := by
  have hh : (hundreds v).toNat < 16 := by rw [hundreds_toNat]; omega
  have ht : (tens v).toNat < 16 := by rw [tens_toNat]; omega
  have ho : (ones v).toNat < 16 := by rw [ones_toNat]; omega
  rw [bcd12, unpack_append, setWidth_nibble_of_lt hh, setWidth_nibble_of_lt ht, setWidth_nibble_of_lt ho]

/-! ### A run of stored bytes, inside and outside it -/

theorem Memory.read_writeBytes_inside {m : Memory} {base : Nat} {bytes : List Byte} (h : m.wf = true)
    (hb : base + bytes.length ≤ 4096) {j : Nat} (hj : j < bytes.length) :
    (m.writeBytes base bytes).read (base + j) = bytes[j] := by
  rw [Memory.read_writeBytes bytes h hb, dif_pos (by omega)]
  simp only [Nat.add_sub_cancel_left]

theorem Memory.read_writeBytes_outside {m : Memory} {base : Nat} {bytes : List Byte} (h : m.wf = true)
    (hb : base + bytes.length ≤ 4096) {a : Nat} (ha : a < base ∨ base + bytes.length ≤ a) :
    (m.writeBytes base bytes).read a = m.read a := by
  rw [Memory.read_writeBytes bytes h hb, dif_neg (by omega)]

/-! ### BCD completes or faults (R141, R144) -/

/-- A BCD whose three addresses lie in memory stores the digits and moves `PC` on. -/
theorem exec_bcd_of_fits {s : State} (h : fits s.i.toNat 3 = true) (x : RegIx) :
    exec (.bcd x) s = .next { s with
      mem := s.mem.writeBytes s.i.toNat [hundreds (s.reg x), tens (s.reg x), ones (s.reg x)], pc := s.pc + 2 } := by
  rw [exec, execBcd, bcdCommand_of_fits h, completeCommand_done, unpack_bcd12]; rfl

/-- Any other BCD takes the bounds fault. -/
theorem exec_bcd_of_not_fits {s : State} (h : fits s.i.toNat 3 = false) (x : RegIx) :
    exec (.bcd x) s = .next (s.raise (.bounds (firstOutside s.i.toNat))) := by
  rw [exec, execBcd, bcdCommand_of_not_fits h, completeCommand_fault]

/-- Settles O29, by the two ways a BCD ends and the bytes read back after the store. -/
theorem bcdStoresThreeDigits : Obligations.BcdStoresThreeDigits := by
  refine fun s x hwf => ⟨fun hin => ?_, fun hout hrun => ?_⟩
  · have hfits : fits s.i.toNat 3 = true := (fits_iff _ _).2 (.inr (by omega))
    rw [exec_bcd_of_fits hfits]
    have hb : s.i.toNat + [hundreds (s.reg x), tens (s.reg x), ones (s.reg x)].length ≤ 4096 :=
      show s.i.toNat + 3 ≤ 4096 by omega
    have hread {j : Nat} (hj : j < 3) := Memory.read_writeBytes_inside hwf hb hj
    refine ⟨_, rfl, rfl, ?_, ?_, ?_, fun a ha => ?_, fun hrun => returnOf_next_of_running hrun _⟩
    · exact (congrArg BitVec.toNat (hread (j := 0) (by decide))).trans (hundreds_toNat _)
    · exact (congrArg BitVec.toNat (hread (j := 1) (by decide))).trans (tens_toNat _)
    · exact (congrArg BitVec.toNat (hread (j := 2) (by decide))).trans (ones_toNat _)
    · exact Memory.read_writeBytes_outside hwf hb (ha.imp_right Nat.succ_le_of_lt)
  · have hfits : fits s.i.toNat 3 = false := (fits_false_iff _ _).2 ⟨by decide, by omega⟩
    rw [exec_bcd_of_not_fits hfits, State.raise_of_running hrun]
    rfl

end Sys2Proof.Machine
end

section
/-! PROOF. The host context, first part: what the operations shared by its instructions do to registers, words, `PC` and
`FLT` (spec/48_host_context.md). -/

namespace Sys2Proof.Machine

/-! ### One register written, `PC` moved on -/

theorem onlyRegister_setReg_advance (s : State) (x : RegIx) (b : Byte) : OnlyRegister x s (s.setReg x b).advance :=
  ⟨rfl, fun _ hj => s.reg_setReg_ne b hj.symm⟩

theorem reg_setReg_advance (s : State) (x : RegIx) (b : Byte) : (s.setReg x b).advance.reg x = b :=
  s.reg_setReg_same x b

theorem onlyRegisterAndFlag_setResultFlag_advance (s : State) (x : RegIx) (b : Byte) (f : Bool) :
    OnlyRegisterAndFlag x s (s.setResultFlag x b f).advance :=
  ⟨rfl, fun _ hj hvf => s.reg_setResultFlag_ne b f hj.symm hvf⟩

/-! ### Flags and shifted-out bits as numbers (R25, R176 to R180) -/

theorem flagByte_decide (p : Prop) [Decidable p] : flagByte (decide p) = if p then 1 else 0 := by simp [flagByte]

theorem flagByte_toNat (c : Bool) : (flagByte c).toNat = c.toNat := by cases c <;> rfl

theorem shrOut_toNat (a : Byte) : (shrOut a).toNat = a.toNat % 2 := by
  rw [shrOut, BitVec.getLsbD, Nat.toNat_testBit, pow_zero, Nat.div_one]

theorem shlOut_toNat (a : Byte) : (shlOut a).toNat = a.toNat / 128 := by
  rw [shlOut, BitVec.getLsbD, Nat.toNat_testBit]
  omega

theorem toNat_byte_sub (a b : Byte) : (a - b).toNat = (a.toNat + 256 - b.toNat) % 256 := by
  rw [BitVec.toNat_sub]
  omega

/-! ### Zero-extended operands (R86, R184) -/

@[simp] theorem target_toNat (nnn : Addr12) : (target nnn).toNat = nnn.toNat :=
  BitVec.toNat_setWidth_of_le (by decide)

@[simp] theorem State.regWord_toNat (s : State) (x : RegIx) : (s.regWord x).toNat = (s.reg x).toNat :=
  BitVec.toNat_setWidth_of_le (by decide)

/-- No glyph address of a zero-extended register wraps (R194). -/
theorem glyphAddress_regWord_toNat (s : State) (x : RegIx) :
    (glyphAddress (s.regWord x)).toNat = 5 * (s.reg x).toNat := by
  simp only [glyphAddress, Config.fontBase, Config.glyphBytes, BitVec.toNat_add, BitVec.toNat_mul, BitVec.toNat_ofNat,
    State.regWord_toNat]
  omega

/-! ### `PC` by 4 or by 2 -/

theorem State.skipIf_beq {α : Type} [DecidableEq α] (s : State) (a b : α) :
    s.skipIf (a == b) = { s with pc := if a = b then s.pc + 4 else s.pc + 2 } := by
  simp only [State.skipIf, beq_iff_eq]

theorem State.skipIf_bne {α : Type} [DecidableEq α] (s : State) (a b : α) :
    s.skipIf (a != b) = { s with pc := if a = b then s.pc + 2 else s.pc + 4 } := by
  simp only [State.skipIf, bne_iff_ne, ne_eq, ite_not]

/-! ### The fault of an access that does not fit (R221, R226) -/

theorem State.raise_bounds_of_running {s : State} (h : s.Running) (base : Nat) :
    s.raise (.bounds (firstOutside base)) = WithFault s .bounds (BitVec.ofNat 16 (max base 4096)) :=
  State.raise_of_running h _

end Sys2Proof.Machine
end

section
/-! PROOF. The host context: block store, block load and `loadProgram` (R195, R196, R198). -/

namespace Sys2Proof.Machine

/-- A block store inside memory completes with memory and `PC` alone changed. -/
theorem exec_ldMemVx_of_fits {s : State} {x : RegIx} (h : fits s.i.toNat (x.val + 1) = true) :
    exec (.ldMemVx x) s = .next { s with mem := (s.storeRegs s.i.toNat (x.val + 1)).mem, pc := s.pc + 2 } := by
  rw [exec, execLdMemVx, if_pos h, State.storeRegs_frame]; rfl

theorem exec_ldMemVx_of_not_fits {s : State} {x : RegIx} (h : fits s.i.toNat (x.val + 1) = false) :
    exec (.ldMemVx x) s = .next (s.raise (.bounds (firstOutside s.i.toNat))) := by
  rw [exec, execLdMemVx, h]; rfl

/-- A block load inside memory completes with registers and `PC` alone changed. -/
theorem exec_ldVxMem_of_fits {s : State} {x : RegIx} (h : fits s.i.toNat (x.val + 1) = true) :
    exec (.ldVxMem x) s = .next { s with v := (s.loadRegs s.i.toNat (x.val + 1)).v, pc := s.pc + 2 } := by
  rw [exec, execLdVxMem, if_pos h, State.loadRegs_frame]; rfl

theorem exec_ldVxMem_of_not_fits {s : State} {x : RegIx} (h : fits s.i.toNat (x.val + 1) = false) :
    exec (.ldVxMem x) s = .next (s.raise (.bounds (firstOutside s.i.toNat))) := by
  rw [exec, execLdVxMem, h]; rfl

/-- Settles O34, by the two ways a block store ends and the bytes read back after the store. -/
theorem blockStoreCopiesRegisters : Obligations.BlockStoreCopiesRegisters := by
  refine fun s x hwf => ⟨fun hin => ?_, fun hout hrun => ?_⟩
  · have hfits : fits s.i.toNat (x.val + 1) = true := (fits_iff _ _).2 (.inr (by omega))
    have hread := State.storeRegs_read (base := s.i.toNat) (count := x.val + 1) hwf (by omega)
    refine ⟨_, exec_ldMemVx_of_fits hfits, rfl, fun j hj => ?_, fun a ha => ?_⟩
    · rw [hread, if_pos (by omega), Nat.add_sub_cancel_left, Fin.ofNat_val_eq_self]
    · rw [hread, if_neg (by omega)]
  · have hfits : fits s.i.toNat (x.val + 1) = false := (fits_false_iff _ _).2 ⟨by omega, by omega⟩
    rw [exec_ldMemVx_of_not_fits hfits, State.raise_bounds_of_running hrun]

/-- Settles O35, by the two ways a block load ends and the registers read after the load. -/
theorem blockLoadCopiesMemory : Obligations.BlockLoadCopiesMemory := by
  refine fun s x => ⟨fun hin => ?_, fun hout hrun => ?_⟩
  · have hfits : fits s.i.toNat (x.val + 1) = true := (fits_iff _ _).2 (.inr (by omega))
    have hreg := State.loadRegs_reg s s.i.toNat (count := x.val + 1) (by omega)
    refine ⟨_, exec_ldVxMem_of_fits hfits, rfl, fun j hj => ?_, fun j hj => ?_⟩
    · exact (hreg j).trans (if_pos (by omega))
    · exact (hreg j).trans (if_neg (by omega))
  · have hfits : fits s.i.toNat (x.val + 1) = false := (fits_false_iff _ _).2 ⟨by omega, by omega⟩
    rw [exec_ldVxMem_of_not_fits hfits, State.raise_bounds_of_running hrun]

theorem loadProgram_of_le {bytes : List Byte} (h : bytes.length ≤ Config.maxImage) (s : State) :
    loadProgram bytes s =
      .ok { s with mem := s.mem.writeBytes Config.progBase bytes, pc := BitVec.ofNat 16 Config.progBase } :=
  if_neg (by omega)

theorem loadProgram_of_gt {bytes : List Byte} (h : bytes.length > Config.maxImage) (s : State) :
    loadProgram bytes s = .oversizedLoad := if_pos h

/-- Settles O51, by the run of bytes read back inside and outside the image. -/
theorem loadProgramCopiesBytes : Obligations.LoadProgramCopiesBytes := by
  refine fun s bytes hwf => ⟨fun hlen => ?_, fun hlen => loadProgram_of_gt hlen s⟩
  have hb : Config.progBase + bytes.length ≤ 4096 := by simp only [Config.progBase]; omega
  exact ⟨_, loadProgram_of_le hlen s, rfl, fun j hj => Memory.read_writeBytes_inside hwf hb hj,
    fun a ha => Memory.read_writeBytes_outside hwf hb ha⟩

end Sys2Proof.Machine
end

section
/-! PROOF. The host context: moves, logic, arithmetic and shifts (R170 to R181). -/

namespace Sys2Proof.Machine

/-- Settles O36: each of the six writes one register, and only the values differ. -/
theorem movesAndLogicWriteOneRegister : Obligations.MovesAndLogicWriteOneRegister := by
  intro s x y kk
  have frame := onlyRegister_setReg_advance s x
  have value := reg_setReg_advance s x
  refine ⟨⟨_, rfl, frame _, value _⟩, ⟨_, rfl, frame _, ?_⟩, ⟨_, rfl, frame _, value _⟩,
    ⟨_, rfl, frame _, fun j _ => ?_⟩, ⟨_, rfl, frame _, fun j _ => ?_⟩, ⟨_, rfl, frame _, fun j _ => ?_⟩⟩
  · rw [value, BitVec.toNat_add]
  · rw [value, BitVec.getLsbD_or]
  · rw [value, BitVec.getLsbD_and]
  · rw [value, BitVec.getLsbD_xor]

/-- Settles O37: the result stands where `x` is not VF, and VF holds the flag whatever `x` is. -/
theorem addAndSubtractWithFlag : Obligations.AddAndSubtractWithFlag := by
  intro s x y
  have frame := onlyRegisterAndFlag_setResultFlag_advance s x
  have result (b : Byte) (f : Bool) (hx : x ≠ 15) := State.reg_setResultFlag_same s b f hx
  have flag (b : Byte) (p : Prop) [Decidable p] := (s.reg_setResultFlag_vf x b (decide p)).trans (flagByte_decide p)
  refine ⟨⟨_, rfl, frame _ _, fun hx => ?_, flag _ _⟩, ⟨_, rfl, frame _ _, fun hx => ?_, flag _ _⟩,
    ⟨_, rfl, frame _ _, fun hx => ?_, flag _ _⟩⟩
  · rw [State.reg_advance, result _ _ hx, BitVec.toNat_add]
  · rw [State.reg_advance, result _ _ hx, toNat_byte_sub]
  · rw [State.reg_advance, result _ _ hx, toNat_byte_sub]

/-- Settles O38: the source is the old `V[x]`, for the result and for the bit shifted out. -/
theorem shiftsWithFlag : Obligations.ShiftsWithFlag := by
  intro s x y
  have frame := onlyRegisterAndFlag_setResultFlag_advance s x
  have result (b : Byte) (f : Bool) (hx : x ≠ 15) := State.reg_setResultFlag_same s b f hx
  have flag (b : Byte) (f : Bool) : ((s.setResultFlag x b f).advance.reg 15).toNat = f.toNat :=
    (congrArg BitVec.toNat (s.reg_setResultFlag_vf x b f)).trans (flagByte_toNat f)
  refine ⟨⟨_, rfl, frame _ _, fun hx => ?_, (flag _ _).trans (shrOut_toNat _)⟩,
    ⟨_, rfl, frame _ _, fun hx => ?_, (flag _ _).trans (shlOut_toNat _)⟩⟩
  · rw [State.reg_advance, result _ _ hx, BitVec.toNat_ushiftRight, Nat.shiftRight_eq_div_pow, pow_one]
  · rw [State.reg_advance, result _ _ hx, BitVec.toNat_shiftLeft, Nat.shiftLeft_eq, pow_one]

end Sys2Proof.Machine
end

section
/-! PROOF. The host context: jumps, calls, returns and skips (R163 to R169, R184). -/

namespace Sys2Proof.Machine

/-- Settles O40: a byte and a 12-bit address add up without a carry out of 16 bits. -/
theorem jumpsSetPcAlone : Obligations.JumpsSetPcAlone := by
  refine fun s nnn => ⟨⟨_, rfl, rfl, target_toNat nnn⟩, _, rfl, rfl, ?_⟩
  rw [BitVec.toNat_add, State.regWord_toNat, target_toNat]
  omega

theorem exec_call_of_lt {s : State} (h : s.sp.val < 16) (nnn : Addr12) :
    exec (.call nnn) s = .next { s with
      stack := s.stack.set s.sp.val (s.pc + 2), sp := ⟨s.sp.val + 1, by omega⟩, pc := target nnn } := by
  rw [exec, execCall, State.push_of_lt _ h]

theorem exec_call_of_full {s : State} (h : s.sp = 16) (nnn : Addr12) :
    exec (.call nnn) s = .next (s.raise .stackOverflow) := by
  rw [exec, execCall, State.push_of_full _ h]

/-- Settles O41, by whether a slot is free. -/
theorem callPushesReturnAddress : Obligations.CallPushesReturnAddress := by
  refine fun s nnn => ⟨fun hlt => ?_, fun hfull hrun => ?_⟩
  · refine ⟨_, exec_call_of_lt hlt nnn, rfl, rfl, target_toNat nnn, fun j => ?_⟩
    rw [Vector.getElem_set]
    exact if_congr eq_comm rfl rfl
  · rw [exec_call_of_full (Fin.ext hfull), State.raise_of_running hrun]
    rfl

theorem exec_ret_of_pos {s : State} (h : 0 < s.sp.val) :
    exec .ret s = .next { s with sp := ⟨s.sp.val - 1, by omega⟩, pc := s.stack[s.sp.val - 1] } := by
  rw [exec, execRet, State.pop_of_pos h]

theorem exec_ret_of_empty {s : State} (h : s.sp = 0) : exec .ret s = .next (s.raise .stackUnderflow) := by
  rw [exec, execRet, State.pop_of_empty h]

/-- Settles O42, by whether a slot is in use: with SP `j + 1` the last one is slot `j`. -/
theorem returnPopsIntoPc : Obligations.ReturnPopsIntoPc := by
  refine fun s => ⟨fun j hj => ?_, fun hempty hrun => ?_⟩
  · have hslot : s.sp.val - 1 = j.val := by omega
    refine ⟨_, exec_ret_of_pos (by omega), ?_, hslot⟩
    simp only [hslot]
  · rw [exec_ret_of_empty (Fin.ext hempty), State.raise_of_running hrun]
    rfl

/-! ### The four skip-ifs (R166 to R169) -/

theorem exec_seImm (x : RegIx) (kk : Byte) (s : State) :
    exec (.seImm x kk) s = .next { s with pc := if s.reg x = kk then s.pc + 4 else s.pc + 2 } :=
  congrArg _ (s.skipIf_beq (s.reg x) kk)

theorem exec_sneImm (x : RegIx) (kk : Byte) (s : State) :
    exec (.sneImm x kk) s = .next { s with pc := if s.reg x = kk then s.pc + 2 else s.pc + 4 } :=
  congrArg _ (s.skipIf_bne (s.reg x) kk)

theorem exec_seReg (x y : RegIx) (s : State) :
    exec (.seReg x y) s = .next { s with pc := if s.reg x = s.reg y then s.pc + 4 else s.pc + 2 } :=
  congrArg _ (s.skipIf_beq (s.reg x) (s.reg y))

theorem exec_sneReg (x y : RegIx) (s : State) :
    exec (.sneReg x y) s = .next { s with pc := if s.reg x = s.reg y then s.pc + 2 else s.pc + 4 } :=
  congrArg _ (s.skipIf_bne (s.reg x) (s.reg y))

/-- Settles O45, by the next states of the four and the condition in each case. -/
theorem skipIfsMovePcByFourOrTwo : Obligations.SkipIfsMovePcByFourOrTwo := by
  intro s x y kk
  simp only [exec_seImm, exec_sneImm, exec_seReg, exec_sneReg]
  refine ⟨fun h => ?_, fun h => ?_, fun h => ?_, fun h => ?_⟩
  · simp only [if_pos h, and_self]
  · simp only [if_neg h, and_self]
  · simp only [if_pos h, and_self]
  · simp only [if_neg h, and_self]

end Sys2Proof.Machine
end

section
/-! PROOF. The host context: keys, timers and the index register (R183, R187 to R194). -/

namespace Sys2Proof.Machine

/-! ### Key skips (R187, R188) -/

/-- A key number 0 to 15 names a key, and the policy is not asked. -/
theorem skipOnKey_of_reg_eq (policy : Config.KeyPolicy) (want : Bool) {x : RegIx} {s : State} {j : Fin 16}
    (h : (s.reg x).toNat = j.val) :
    skipOnKey policy want x s = .next { s with pc := if s.key[j.val] = want then s.pc + 4 else s.pc + 2 } := by
  rw [← s.skipIf_beq, skipOnKey, State.keyState_of_lt policy (by omega)]
  simp only [h]

theorem skipOnKey_of_refused {policy : Config.KeyPolicy} (want : Bool) {x : RegIx} {s : State}
    (h : 16 ≤ (s.reg x).toNat) (hp : policy (s.reg x) s.key = .refused) :
    skipOnKey policy want x s = .refused (.keyIndexOpen (s.reg x)) := by
  rw [skipOnKey, State.keyState_of_ge policy h, hp]

/-- Settles O46: SKP and SKNP are one key skip, for a held key and for one that is not. -/
theorem keySkips : Obligations.KeySkips := fun _ _ =>
  ⟨fun _ hj => ⟨skipOnKey_of_reg_eq _ true hj, skipOnKey_of_reg_eq _ false hj⟩,
    fun hx => ⟨skipOnKey_of_refused true hx rfl, skipOnKey_of_refused false hx rfl⟩⟩

/-! ### Wait for key (R192) -/

theorem lowestHeld_eq_some_iff {key : Vector Bool 16} {j : Fin 16} :
    lowestHeld key = some j ↔ key[j.val] = true ∧ ∀ k : Fin 16, k < j → key[k.val] = false := by
  rw [lowestHeld, List.find?_eq_some_iff_getElem]
  simp only [List.getElem_finRange, List.length_finRange, Bool.not_eq_true']
  refine and_congr_right fun _ => ⟨?_, fun h => ⟨j.val, j.isLt, rfl, fun k hk => h ⟨k, by omega⟩ hk⟩⟩
  rintro ⟨i, hi, rfl, h⟩ k hk
  exact h k.val hk

theorem waitKey_of_none {sel : Config.KeySel} {s : State} (h : sel s.key = none) (x : RegIx) : waitKey sel x s = s := by
  rw [waitKey, h]

theorem waitKey_of_some {sel : Config.KeySel} {s : State} {j : Fin 16} (h : sel s.key = some j) (x : RegIx) :
    waitKey sel x s = (s.setReg x (BitVec.ofNat 8 j.val)).advance := by
  rw [waitKey, h]

theorem exec_ldVxK (x : RegIx) (s : State) : exec (.ldVxK x) s = .next (waitKey lowestHeld x s) := rfl

/-- Settles O47, by what the lowest held key is. -/
theorem waitForKeyReportsLowestHeld : Obligations.WaitForKeyReportsLowestHeld := by
  refine fun s x => ⟨fun hnone => ?_, fun j hj hbelow => ?_⟩
  · rw [exec_ldVxK, waitKey_of_none (lowestHeld_eq_none_iff.2 hnone)]
  · have hsel : lowestHeld s.key = some j := lowestHeld_eq_some_iff.2 ⟨hj, hbelow⟩
    rw [exec_ldVxK, waitKey_of_some hsel]
    refine ⟨_, rfl, onlyRegister_setReg_advance s x _, ?_⟩
    rw [reg_setReg_advance, BitVec.toNat_ofNat]
    omega

/-! ### Timers and the index register -/

/-- Settles O49, by the next states of the three moves. -/
theorem timerMoves : Obligations.TimerMoves := fun s x =>
  ⟨⟨_, rfl, onlyRegister_setReg_advance s x s.dt, reg_setReg_advance s x s.dt⟩, rfl, rfl⟩

/-- Settles O50, by the numbers the three words stand for. -/
theorem indexWrites : Obligations.IndexWrites := by
  refine fun s x nnn => ⟨⟨_, rfl, rfl, target_toNat nnn⟩, ⟨_, rfl, rfl, ?_⟩,
    ⟨_, rfl, rfl, glyphAddress_regWord_toNat s x⟩⟩
  exact (BitVec.toNat_add _ _).trans (by rw [State.regWord_toNat])

end Sys2Proof.Machine
end

section
/-! PROOF. The host context: the host environment's ticks, keys and reads (R199, R200, R202), and the fetch (R161). -/

namespace Sys2Proof.Machine

theorem countDown_toNat (t : Byte) : (countDown t).toNat = t.toNat - 1 := by
  rw [countDown]
  split_ifs with h
  · exact BitVec.toNat_sub_of_le (BitVec.le_def.2 h)
  · omega

/-- Settles O52: each timer is counted down by itself. -/
theorem tickTimersClampAtZero : Obligations.TickTimersClampAtZero := fun s =>
  ⟨_, rfl, rfl, countDown_toNat s.dt, countDown_toNat s.st⟩

theorem setKey_of_lt {index : Nat} (h : index < 16) (pressed : Bool) (s : State) :
    setKey index pressed s = .ok { s with key := s.key.set index pressed } := dif_pos h

theorem setKey_of_ge {index : Nat} (h : 16 ≤ index) (pressed : Bool) (s : State) :
    setKey index pressed s = .refusedIndex := dif_neg (by omega)

/-- Settles O53, by the domain of the call and the keys read back after the write. -/
theorem setKeySetsOneKey : Obligations.SetKeySetsOneKey := by
  refine fun s index pressed => ⟨fun hlt => ⟨_, setKey_of_lt hlt pressed s, rfl, fun j => ?_⟩, fun hge => ?_⟩
  · rw [Vector.getElem_set]
    exact if_congr eq_comm rfl rfl
  · exact setKey_of_ge hge pressed s

/-- The linear index `x + 64 * y` names the cell at column `x`, row `y` (R21). -/
theorem Display.at_linear (fb : Display) (px : Fin 64) (py : Fin 32) :
    Display.at fb ⟨px.val + 64 * py.val, by omega⟩ = Display.cell fb px py := by
  have hcol : Fin.ofNat 64 (px.val + 64 * py.val) = px := Fin.ext (by simp only [Fin.ofNat]; omega)
  have hrow : (⟨(px.val + 64 * py.val) / 64, by omega⟩ : Fin 32) = py := Fin.ext (by simp only; omega)
  rw [Display.at, hcol, hrow]

/-- The fault port as a number: the code of the kind above the 16 bits of the address (R35). -/
theorem faultPort_toNat (s : State) : (faultPort s).toNat = s.flt.addr.toNat + 65536 * s.flt.kind.code.toNat := by
  rw [faultPort, BitVec.toNat_append, Nat.shiftLeft_eq, Nat.mul_comm,
    ← Nat.two_pow_add_eq_or_of_lt s.flt.addr.isLt, Nat.add_comm]

/-- Settles O54, by the linear index of a cell and the two fields of the fault port. -/
theorem hostReads : Obligations.HostReads := by
  refine fun s => ⟨fun px py => ?_, rfl, ?_⟩
  · rw [getDisplay, Vector.getElem_ofFn, Display.at_linear]
  · rw [faultPort_toNat]
    cases s.flt.kind <;> rfl

/-! ### The fetch (R161) -/

/-- A fetch outside memory raises its fault and does nothing else. -/
theorem step_of_fetchDecode_outside {s : State} {a : Nat} (h : fetchDecode s = .outside a) :
    step s = .next (s.raise (.bounds a)) := by
  simp only [step, stepWith, Params.default_opmap, h]

theorem State.fetchWord_toNat (s : State) :
    s.fetchWord.toNat = (s.mem.read s.pc.toNat).toNat * 256 + (s.mem.read (s.pc.toNat + 1)).toNat :=
  wordOfBytes_toNat _ _

/-- Settles O8, by the bounds check on the second byte's address. -/
theorem fetchBoundsAndByteOrder : Obligations.FetchBoundsAndByteOrder := by
  refine fun s hrun => ⟨fun hout => ?_, fun hin => ⟨s.fetchWord_toNat, ?_⟩⟩
  · have hfits : fits s.pc.toNat 2 = false := (fits_false_iff _ _).2 ⟨by decide, by omega⟩
    rw [step_of_fetchDecode_outside (fetchDecode_of_outside hrun hfits), State.raise_bounds_of_running hrun]
  · have hfits : fits s.pc.toNat 2 = true := (fits_iff _ _).2 (.inr (by omega))
    cases hdec : decodeWord s.fetchWord with
    | some i => exact fetchDecode_of_instr hrun hfits hdec
    | none => exact fetchDecode_of_unknown hrun hfits hdec

end Sys2Proof.Machine
end

section
/-! PROOF. The exceptions family: which fault an instruction raises and what `FLT` records, and the step that latches a
fault (spec/60_exceptions.md, R220 to R226). -/

namespace Sys2Proof.Machine

/-! ### The table of faults (R221 to R223) -/

/-- An instruction takes the fault it raises, and does nothing else (R226). -/
theorem exec_of_raises {i : Instr} {s : State} {e : Trap} (h : Raises i s e) : exec i s = .next (s.raise e) := by
  cases i with
  | drw x y n =>
    obtain ⟨hfits, rfl⟩ := h
    exact exec_drw_of_not_spriteInMemory (by simp [spriteInMemory_iff_fits, hfits]) x y
  | bcd x => obtain ⟨hfits, rfl⟩ := h; exact exec_bcd_of_not_fits hfits x
  | ldMemVx x => obtain ⟨hfits, rfl⟩ := h; exact exec_ldMemVx_of_not_fits hfits
  | ldVxMem x => obtain ⟨hfits, rfl⟩ := h; exact exec_ldVxMem_of_not_fits hfits
  | call nnn => obtain ⟨hfull, rfl⟩ := h; exact exec_call_of_full hfull nnn
  | ret => obtain ⟨hempty, rfl⟩ := h; exact exec_ret_of_empty hempty
  | _ => exact h.elim

/-- Where an instruction raises a fault, the table holds what the fault records. -/
theorem faultAfter_of_raises {i : Instr} {s : State} {e : Trap} (h : Raises i s e) :
    FaultAfter i s = e.record s.pc := by
  cases i with
  | drw | bcd | ldMemVx | ldVxMem =>
    obtain ⟨hfits, rfl⟩ := h
    rw [fits_false_iff] at hfits
    exact if_pos (by omega)
  | call | ret => obtain ⟨hsp, rfl⟩ := h; exact if_pos hsp
  | _ => exact h.elim

/-- Where an instruction raises none, the table holds the old `FLT`. -/
theorem faultAfter_of_not_raises {i : Instr} {s : State} (h : ∀ e : Trap, ¬ Raises i s e) : FaultAfter i s = s.flt := by
  cases i with
  | drw | bcd | ldMemVx | ldVxMem => exact if_neg fun hout => h _ ⟨(fits_false_iff _ _).2 (by omega), rfl⟩
  | call | ret => exact if_neg fun hsp => h _ ⟨hsp, rfl⟩
  | _ => rfl

/-- After any instruction of a running machine `FLT` is the table's entry. -/
theorem exec_flt {i : Instr} {s t : State} (hrun : s.Running) (h : exec i s = .next t) : t.flt = FaultAfter i s := by
  by_cases hr : ∃ e, Raises i s e
  · obtain ⟨e, hr⟩ := hr
    rw [exec_of_raises hr] at h
    cases h
    rw [State.raise_flt_of_running hrun, faultAfter_of_raises hr]
  · rw [not_exists] at hr
    obtain hfoot | ⟨e, he, -⟩ := exec_cases h
    · rw [hfoot.flt, faultAfter_of_not_raises hr]
    · exact absurd he (hr e)

/-- Settles O11: the fault of the fetch, and the table of the instructions' faults. -/
theorem faultsAsTabulated : Obligations.FaultsAsTabulated := by
  refine ⟨fun s t hrun hpc h => ?_, fun _ _ _ => exec_flt⟩
  rw [(fetchBoundsAndByteOrder s hrun).1 (by omega)] at h
  cases h
  rfl

/-! ### The step that latches a fault (R226) -/

/-- A step from a running machine that leaves it latched took a fault, of the fetch or of the instruction fetched. -/
theorem step_fault_cases {s t : State} (hrun : s.Running) (h : step s = .next t) (ht : ¬ t.Running) :
    (∃ e : Trap, t = s.raise e) ∧
      (fits s.pc.toNat 2 = false ∨
       ∃ i, fits s.pc.toNat 2 = true ∧ decodeWord s.fetchWord = some i ∧ exec i s = .next t) := by
  obtain ⟨-, ⟨hout, rfl⟩ | ⟨-, -, rfl⟩ | ⟨i, hin, hdec, hexec⟩⟩ := step_cases h
  · exact ⟨⟨_, rfl⟩, .inl hout⟩
  · exact absurd hrun ht
  · obtain hfoot | ⟨e, -, he⟩ := exec_cases hexec
    · exact absurd (hfoot.running hrun) ht
    · exact ⟨⟨e, he⟩, .inr ⟨i, hin, hdec, hexec⟩⟩

theorem stepReturn_of_fetchDecode_outside {s : State} {a : Nat} (h : fetchDecode s = .outside a) :
    stepReturn s = some .fault := by
  simp only [stepReturn, Params.default_opmap, h]

theorem stepReturn_of_fetchDecode_instr {s : State} {i : Instr} (h : fetchDecode s = .instr i) :
    stepReturn s = returnOf i (exec i s) := by
  simp only [stepReturn, Params.default_opmap, h, execWith_default]

/-- Settles O10: the step took the fault of the fetch, or the fetched instruction took its own. -/
theorem raisedFaultChangesOnlyFlt : Obligations.RaisedFaultChangesOnlyFlt := by
  intro s t hrun hstep ht
  obtain ⟨⟨e, he⟩, hcause⟩ := step_fault_cases hrun hstep ht
  refine ⟨by rw [he, State.raise_of_running hrun], ?_⟩
  obtain hout | ⟨i, hin, hdec, hexec⟩ := hcause
  · have hpc : s.pc.toNat ≥ 4095 := by rw [fits_false_iff] at hout; omega
    exact ⟨stepReturn_of_fetchDecode_outside (fetchDecode_of_outside hrun hout),
      .inl ⟨hpc, faultsAsTabulated.1 s t hrun hpc hstep⟩⟩
  · have hpc : s.pc.toNat < 4095 := by rw [fits_iff] at hin; omega
    rw [stepReturn_of_fetchDecode_instr (fetchDecode_of_instr hrun hin hdec), hexec]
    exact ⟨returnOf_next_of_not_running ht i, .inr ⟨hpc, i, hdec, exec_flt hrun hexec⟩⟩

end Sys2Proof.Machine
end

section
/-! PROOF. The encoding family, second part: a row's key as a number, no word with two rows, and the row of an
instruction, by which decoding and encoding undo each other but for the ignored bits (spec/30_encoding.md R81 to
R94). -/

namespace Sys2Proof

/-! ### A secondary key as the value of some low bits (R89) -/

/-- How many low bits of a word the secondary key is. -/
def SubKey.width : SubKey → Nat
  | .none => 0
  | .n1 _ => 4
  | .low _ => 8

/-- The value of those bits. -/
def SubKey.value : SubKey → Nat
  | .none => 0
  | .n1 k => k
  | .low b => b

theorem SubKey.selects_iff (k : SubKey) (w : Word) : k.selects w = true ↔ w.toNat % 2 ^ k.width = k.value := by
  cases k with
  | none => simp [SubKey.selects, SubKey.width, SubKey.value, Nat.mod_one]
  | n1 k => exact beq_iff_eq
  | low b => exact beq_iff_eq

theorem OpRow.selects_iff {r : OpRow} {w : Word} :
    r.selects w = true ↔ w.toNat / 4096 = r.n4 ∧ w.toNat % 2 ^ r.sub.width = r.sub.value := by
  rw [OpRow.selects, Bool.and_eq_true, beq_iff_eq, SubKey.selects_iff]

theorem OpRow.pattern_eq (r : OpRow) : r.pattern = r.n4 * 4096 + r.sub.value := by
  rw [OpRow.pattern]
  cases r.sub with
  | none => exact (Nat.add_zero _).symm
  | n1 k | low b => rfl

theorem OpRow.mask_eq (r : OpRow) : r.mask = 15 * 4096 + (2 ^ r.sub.width - 1) := by
  rw [OpRow.mask]
  cases r.sub <;> norm_num [SubKey.width]

theorem SubKey.width_cases (k : SubKey) : k.width = 0 ∨ k.width = 4 ∨ k.width = 8 := by
  cases k <;> simp [SubKey.width]

/-- The keys of the default map lie in their bits. -/
theorem keys_lt_of_mem_opmap : ∀ r ∈ opmap, r.n4 < 16 ∧ r.sub.value < 2 ^ r.sub.width := by decide

/-! ### No word has two rows (R88) -/

/-- The rows of the default map differ in the primary key, or in secondary keys of one width. -/
theorem opmap_pairwise_keys :
    opmap.Pairwise fun r q => r.n4 ≠ q.n4 ∨ r.sub.width = q.sub.width ∧ r.sub.value ≠ q.sub.value := by decide

/-- No later row selects a word that a row selects. -/
theorem opmap_pairwise_selects (w : Word) :
    opmap.Pairwise fun r q => r.selects w = true → q.selects w ≠ true := by
  refine opmap_pairwise_keys.imp fun {r q} hdiff hr hq => ?_
  rw [OpRow.selects_iff] at hr hq
  obtain h4 | ⟨hwidth, hvalue⟩ := hdiff
  · exact h4 (hr.1.symm.trans hq.1)
  · exact hvalue (by rw [← hr.2, ← hq.2, hwidth])

/-- At most one entry of a list passes a test that none passes after another has. -/
theorem length_filter_le_one_of_pairwise {α : Type} {p : α → Bool} {l : List α}
    (h : l.Pairwise fun a b => p a = true → p b ≠ true) : (l.filter p).length ≤ 1 := by
  induction h with
  | nil => exact Nat.zero_le 1
  | @cons a l hall _ ih =>
    cases hp : p a with
    | false => rwa [List.filter_cons_of_neg (by simp [hp])]
    | true =>
      have hnone : l.filter p = [] := List.filter_eq_nil_iff.2 fun b hb => hall b hb hp
      rw [List.filter_cons_of_pos hp, hnone, List.length_singleton]

/-- The entry that passes is then the one a search finds. -/
theorem find?_eq_some_of_pairwise {α : Type} {p : α → Bool} {l : List α}
    (h : l.Pairwise fun a b => p a = true → p b ≠ true) {a : α} (ha : a ∈ l) (hp : p a = true) :
    l.find? p = some a := by
  have hlen := length_filter_le_one_of_pairwise h
  have hmem : a ∈ l.filter p := List.mem_filter.2 ⟨ha, hp⟩
  obtain ⟨b, hb⟩ := List.length_eq_one_iff.1 (Nat.le_antisymm hlen (List.length_pos_of_mem hmem))
  rw [hb, List.mem_singleton] at hmem
  rw [← List.head?_filter, hb, List.head?_cons, hmem]

/-- The bits of a word under a row's mask: `n4` and the low bits of the secondary key. -/
theorem and_key_mask {n k : Nat} (hn : n < 65536) (hk : k = 0 ∨ k = 4 ∨ k = 8) :
    n &&& (15 * 4096 + (2 ^ k - 1)) = n / 4096 * 4096 + n % 2 ^ k := by
  have hpow : 2 ^ k ≤ 2 ^ 8 := Nat.pow_le_pow_right (by decide) (by omega)
  have hhigh : (n &&& (15 * 4096 + (2 ^ k - 1))) / 2 ^ 12 = n / 4096 := by
    have hmask : (15 * 4096 + (2 ^ k - 1)) / 2 ^ 12 = 2 ^ 4 - 1 := by omega
    rw [Nat.and_div_two_pow, hmask, Nat.and_two_pow_sub_one_eq_mod]
    omega
  have hlow : (n &&& (15 * 4096 + (2 ^ k - 1))) % 2 ^ 12 = n % 2 ^ k := by
    have hmask : (15 * 4096 + (2 ^ k - 1)) % 2 ^ 12 = 2 ^ k - 1 := by omega
    rw [Nat.and_mod_two_pow, hmask, Nat.and_two_pow_sub_one_eq_mod,
      Nat.mod_mod_of_dvd n (Nat.pow_dvd_pow 2 (by omega))]
  omega

/-- A row selects by its match and mask of spec/opcode_table.json. -/
theorem OpRow.selects_iff_and_mask {r : OpRow} (hr : r ∈ opmap) (w : Word) :
    r.selects w = true ↔ w.toNat &&& r.mask = r.pattern := by
  obtain ⟨-, hvalue⟩ := keys_lt_of_mem_opmap r hr
  have hk := r.sub.width_cases
  have hpow : 2 ^ r.sub.width ≤ 2 ^ 8 := Nat.pow_le_pow_right (by decide) (by omega)
  have hmod := Nat.mod_lt w.toNat (Nat.two_pow_pos r.sub.width)
  rw [OpRow.selects_iff, OpRow.mask_eq, OpRow.pattern_eq, and_key_mask w.isLt hk]
  omega

/-- Settles O6: the mask reads the two keys, and two rows differ in one of them. -/
theorem rowsSelectByMaskAndNeverTwice : Obligations.RowsSelectByMaskAndNeverTwice :=
  ⟨fun _ hr w => OpRow.selects_iff_and_mask hr w,
    fun w => length_filter_le_one_of_pairwise (opmap_pairwise_selects w)⟩

/-! ### The row of an instruction -/

/-- The row that has operand bits for the instruction. -/
def opRowOf (i : Instr) : OpRow := (opmap.find? fun r => (r.operands i).isSome).getD blockRows[0]

/-- The operand bits of an instruction, as its row lays them out. -/
def operandBits (i : Instr) : Nat := ((opRowOf i).operands i).getD 0

theorem opRowOf_mem_opmap (i : Instr) : opRowOf i ∈ opmap := by
  unfold opRowOf
  cases h : opmap.find? fun r => (r.operands i).isSome with
  | none => exact List.mem_append_left _ (List.getElem_mem _)
  | some r => exact List.mem_of_find?_eq_some h

/-- The row of what a row builds is that row. -/
theorem opRowOf_build : ∀ r ∈ opmap, ∀ w : Word, opRowOf (r.build w) = r := by
  refine List.forall_iff_forall_mem.1 ?_
  and_intros <;> exact fun _ => rfl

/-- A word decodes to an instruction exactly when the instruction's row selects it and builds the instruction of it. -/
theorem decodeWord_eq_some_iff {w : Word} {i : Instr} :
    decodeWord w = some i ↔ (opRowOf i).selects w = true ∧ (opRowOf i).build w = i := by
  rw [decodeWord, Option.map_eq_some_iff]
  constructor
  · rintro ⟨r, hfind, rfl⟩
    rw [opRowOf_build r (List.mem_of_find?_eq_some hfind) w]
    exact ⟨List.find?_some (p := fun r : OpRow => r.selects w) hfind, rfl⟩
  · rintro ⟨hsel, hbuild⟩
    exact ⟨opRowOf i, find?_eq_some_of_pairwise (opmap_pairwise_selects w) (opRowOf_mem_opmap i) hsel, hbuild⟩

/-- The canonical word is the instruction's row's, with its operand bits. -/
theorem encode_eq_word (i : Instr) : encode i = (opRowOf i).word (operandBits i) := by cases i <;> rfl

/-- The operand bits lie below `n4` and beside the secondary key. -/
theorem operandBits_beside (i : Instr) :
    operandBits i < 4096 ∧ operandBits i % 2 ^ (opRowOf i).sub.width = 0 := by
  cases i with
  | cls | ret => exact ⟨by decide, by decide⟩
  | bcd x | skp x | sknp x | ldVxDt x | ldVxK x | ldDtVx x | ldStVx x | addI x | ldF x | ldMemVx x | ldVxMem x =>
    exact layoutX_fits x
  | ldReg x y | orReg x y | andReg x y | xorReg x y | addReg x y | subReg x y | shr x y | subnReg x y | shl x y =>
    exact layoutXY_fits x y
  | seReg x y | sneReg x y => exact ⟨(layoutXY_fits x y).1, Nat.mod_one _⟩
  | drw x y n => exact ⟨layoutXYN_lt x y n, Nat.mod_one _⟩
  | seImm x kk | sneImm x kk | ldImm x kk | addImm x kk | rnd x kk => exact ⟨layoutXKK_lt x kk, Nat.mod_one _⟩
  | jp nnn | call nnn | ldI nnn | jpV0 nnn => exact ⟨layoutNNN_lt nnn, Nat.mod_one _⟩

/-- A key of `k` low bits and operand bits beside it are two parts of the word's low 12 bits. -/
theorem key_add_operands {k value bits : Nat} (hk : k = 0 ∨ k = 4 ∨ k = 8) (hvalue : value < 2 ^ k)
    (hlt : bits < 4096) (hbeside : bits % 2 ^ k = 0) :
    value + bits < 4096 ∧ (value + bits) % 2 ^ k = value ∧ (value + bits) / 2 ^ k = bits / 2 ^ k := by
  obtain rfl | rfl | rfl := hk <;> omega

theorem key_add_operandBits (i : Instr) :
    (opRowOf i).sub.value + operandBits i < 4096 ∧
    ((opRowOf i).sub.value + operandBits i) % 2 ^ (opRowOf i).sub.width = (opRowOf i).sub.value ∧
    ((opRowOf i).sub.value + operandBits i) / 2 ^ (opRowOf i).sub.width = operandBits i / 2 ^ (opRowOf i).sub.width :=
  key_add_operands (opRowOf i).sub.width_cases (keys_lt_of_mem_opmap _ (opRowOf_mem_opmap i)).2
    (operandBits_beside i).1 (operandBits_beside i).2

/-- The canonical word as a number: `n4`, the secondary key and the operand bits. -/
theorem encode_toNat (i : Instr) :
    (encode i).toNat = (opRowOf i).n4 * 4096 + ((opRowOf i).sub.value + operandBits i) := by
  obtain ⟨hn4, -⟩ := keys_lt_of_mem_opmap _ (opRowOf_mem_opmap i)
  obtain ⟨hlt, -, -⟩ := key_add_operandBits i
  rw [encode_eq_word, OpRow.word_toNat (by rw [OpRow.pattern_eq]; omega), OpRow.pattern_eq, Nat.add_assoc]

/-! ### Decoding the canonical word -/

theorem encode_toNat_div (i : Instr) : (encode i).toNat / 4096 = (opRowOf i).n4 := by
  obtain ⟨hlt, -, -⟩ := key_add_operandBits i
  rw [encode_toNat]
  omega

theorem encode_toNat_mod (i : Instr) : (encode i).toNat % 4096 = (opRowOf i).sub.value + operandBits i := by
  obtain ⟨hlt, -, -⟩ := key_add_operandBits i
  rw [encode_toNat]
  omega

/-- The canonical word has its row's keys. -/
theorem opRowOf_selects_encode (i : Instr) : (opRowOf i).selects (encode i) = true := by
  obtain ⟨-, hkey, -⟩ := key_add_operandBits i
  have hdvd : 2 ^ (opRowOf i).sub.width ∣ 4096 :=
    Nat.pow_dvd_pow 2 (n := 12) (by have := (opRowOf i).sub.width_cases; omega)
  rw [OpRow.selects_iff, ← Nat.mod_mod_of_dvd _ hdvd, encode_toNat_mod]
  exact ⟨encode_toNat_div i, hkey⟩

/-- The bits of the canonical word above the secondary key are the operand bits. -/
theorem encode_operands (i : Instr) (j : Nat) (hj : (opRowOf i).sub.width ≤ j) :
    (encode i).toNat % 4096 / 2 ^ j = operandBits i / 2 ^ j := by
  obtain ⟨-, -, hdiv⟩ := key_add_operandBits i
  obtain ⟨d, rfl⟩ := Nat.exists_eq_add_of_le hj
  rw [encode_toNat_mod, Nat.pow_add, ← Nat.div_div_eq_div_mul, hdiv, Nat.div_div_eq_div_mul]

/-- The bits of a layout from its lowest field on determine the fields (R81 to R87): `x` alone. -/
theorem fieldX_of_layoutX {w : Word} {x : RegIx} (h : w.toNat % 4096 / 2 ^ 8 = layoutX x / 2 ^ 8) : fieldX w = x :=
  fieldX_eq_of_toNat (by rw [layoutX] at h; omega)

theorem fieldXY_of_layoutXY {w : Word} {x y : RegIx} (h : w.toNat % 4096 / 2 ^ 4 = layoutXY x y / 2 ^ 4) :
    fieldX w = x ∧ fieldY w = y := by
  rw [layoutXY] at h
  exact ⟨fieldX_eq_of_toNat (by omega), fieldY_eq_of_toNat (by omega)⟩

theorem fieldXYN_of_layoutXYN {w : Word} {x y : RegIx} {n : Fin 16}
    (h : w.toNat % 4096 / 2 ^ 0 = layoutXYN x y n / 2 ^ 0) :
    fieldX w = x ∧ fieldY w = y ∧ fieldN w = n := by
  rw [layoutXYN] at h
  exact ⟨fieldX_eq_of_toNat (by omega), fieldY_eq_of_toNat (by omega), fieldN_eq_of_toNat (by omega)⟩

theorem fieldXKK_of_layoutXKK {w : Word} {x : RegIx} {kk : Byte} (h : w.toNat % 4096 / 2 ^ 0 = layoutXKK x kk / 2 ^ 0) :
    fieldX w = x ∧ fieldKK w = kk := by
  rw [layoutXKK] at h
  exact ⟨fieldX_eq_of_toNat (by omega), fieldKK_eq_of_toNat (by omega)⟩

theorem fieldNNN_of_layoutNNN {w : Word} {nnn : Addr12} (h : w.toNat % 4096 / 2 ^ 0 = layoutNNN nnn / 2 ^ 0) :
    fieldNNN w = nnn :=
  fieldNNN_eq_of_toNat (by rw [layoutNNN] at h; omega)

/-- Every operand is read back where its row laid it out, layout by layout (R87). -/
theorem opRowOf_build_encode (i : Instr) : (opRowOf i).build (encode i) = i := by
  have hbits := encode_operands i
  generalize encode i = w at hbits
  cases i with
  | cls | ret => rfl
  | bcd x | skp x | sknp x | ldVxDt x | ldVxK x | ldDtVx x | ldStVx x | addI x | ldF x | ldMemVx x | ldVxMem x =>
    obtain rfl := fieldX_of_layoutX (hbits 8 (Nat.le_of_ble_eq_true rfl))
    rfl
  | ldReg x y | orReg x y | andReg x y | xorReg x y | addReg x y | subReg x y | shr x y | subnReg x y | shl x y
  | seReg x y | sneReg x y =>
    obtain ⟨rfl, rfl⟩ := fieldXY_of_layoutXY (hbits 4 (Nat.le_of_ble_eq_true rfl))
    rfl
  | drw x y n =>
    obtain ⟨rfl, rfl, rfl⟩ := fieldXYN_of_layoutXYN (hbits 0 (Nat.le_refl 0))
    rfl
  | seImm x kk | sneImm x kk | ldImm x kk | addImm x kk | rnd x kk =>
    obtain ⟨rfl, rfl⟩ := fieldXKK_of_layoutXKK (hbits 0 (Nat.le_refl 0))
    rfl
  | jp nnn | call nnn | ldI nnn | jpV0 nnn =>
    obtain rfl := fieldNNN_of_layoutNNN (hbits 0 (Nat.le_refl 0))
    rfl

theorem decodeWord_encode (i : Instr) : decodeWord (encode i) = some i :=
  decodeWord_eq_some_iff.2 ⟨opRowOf_selects_encode i, opRowOf_build_encode i⟩

/-- Settles O2: the canonical word has the keys of the instruction's row, and the row reads its operands back. -/
theorem decodeOfEncode : Obligations.DecodeOfEncode := by
  refine fun i _ => ⟨decodeWord_encode i, fun rest => ?_⟩
  simp only [encodeBytes, bytesOfWord, List.cons_append, List.nil_append, decode, wordOfBytes_bytesOfWord,
    decodeWord_encode]

/-! ### Encoding what a word decodes to -/

/-- The canonical word has the keys of any word that decodes to the instruction. -/
theorem encode_toNat_of_selects {w : Word} {i : Instr} (h : (opRowOf i).selects w = true) :
    (encode i).toNat = w.toNat / 4096 * 4096 + (w.toNat % 2 ^ (opRowOf i).sub.width + operandBits i) := by
  obtain ⟨hn4, hvalue⟩ := OpRow.selects_iff.1 h
  rw [encode_toNat, hn4, hvalue]

/-- Keys and fields of a word put the word together again: a register beside a low-byte key. -/
theorem word_of_layoutX (w : Word) :
    w.toNat / 4096 * 4096 + (w.toNat % 2 ^ 8 + layoutX (fieldX w)) = w.toNat := by
  simp only [layoutX, fieldX, nibble_val]; omega

theorem word_of_layoutXY_n1 (w : Word) :
    w.toNat / 4096 * 4096 + (w.toNat % 2 ^ 4 + layoutXY (fieldX w) (fieldY w)) = w.toNat := by
  simp only [layoutXY, fieldX, fieldY, nibble_val]; omega

/-- The register skip-ifs drop `n1` (R89). -/
theorem word_of_layoutXY (w : Word) :
    w.toNat / 4096 * 4096 + (w.toNat % 2 ^ 0 + layoutXY (fieldX w) (fieldY w)) = w.toNat / 16 * 16 := by
  simp only [layoutXY, fieldX, fieldY, nibble_val]; omega

theorem word_of_layoutXYN (w : Word) :
    w.toNat / 4096 * 4096 + (w.toNat % 2 ^ 0 + layoutXYN (fieldX w) (fieldY w) (fieldN w)) = w.toNat := by
  simp only [layoutXYN, fieldX, fieldY, fieldN, nibble_val]; omega

theorem word_of_layoutXKK (w : Word) :
    w.toNat / 4096 * 4096 + (w.toNat % 2 ^ 0 + layoutXKK (fieldX w) (fieldKK w)) = w.toNat := by
  simp only [layoutXKK, fieldX, fieldKK, nibble_val, BitVec.toNat_ofNat]; omega

theorem word_of_layoutNNN (w : Word) :
    w.toNat / 4096 * 4096 + (w.toNat % 2 ^ 0 + layoutNNN (fieldNNN w)) = w.toNat := by
  simp only [layoutNNN, fieldNNN, BitVec.toNat_ofNat]; omega

/-- Settles O3: the canonical word has the keys of the given one, and beside them each layout puts back the fields it
read, all but `n3` of CLS and RET and `n1` of the register skip-ifs. -/
theorem encodeOfDecodeDropsIgnoredBitsOnly : Obligations.EncodeOfDecodeDropsIgnoredBitsOnly := by
  intro w i h
  obtain ⟨hsel, hbuild⟩ := decodeWord_eq_some_iff.1 h
  have hword := encode_toNat_of_selects hsel
  cases i with
  | cls | ret =>
    have hn4 : w.toNat / 4096 = 0 := (OpRow.selects_iff.1 hsel).1
    refine hword.trans ?_
    rw [hn4, Nat.zero_mul, Nat.zero_add]; rfl
  | bcd | skp | sknp | ldVxDt | ldVxK | ldDtVx | ldStVx | addI | ldF | ldMemVx | ldVxMem =>
    cases hbuild
    exact hword.trans (word_of_layoutX w)
  | ldReg | orReg | andReg | xorReg | addReg | subReg | shr | subnReg | shl =>
    cases hbuild
    exact hword.trans (word_of_layoutXY_n1 w)
  | seReg | sneReg =>
    cases hbuild
    exact hword.trans (word_of_layoutXY w)
  | drw =>
    cases hbuild
    exact hword.trans (word_of_layoutXYN w)
  | seImm | sneImm | ldImm | addImm | rnd =>
    cases hbuild
    exact hword.trans (word_of_layoutXKK w)
  | jp | call | ldI | jpV0 =>
    cases hbuild
    exact hword.trans (word_of_layoutNNN w)

end Sys2Proof
end

section
/-! PROOF. The block at its ports: which words it claims, what it answers, and what its transfers do to the host core
(spec/30_encoding.md R88, R91 to R93; spec/10_state.md R40; R227). -/

namespace Sys2Proof

/-- Settles O1, by running the decoder on the eleven words. -/
theorem writtenWordsDecode : Obligations.WrittenWordsDecode := by
  unfold Obligations.WrittenWordsDecode
  decide

/-! ### The words the block claims (R88) -/

theorem claimed_iff_exists_row (w : Word) : claimed w = true ↔ ∃ r ∈ blockRows, r.selects w = true :=
  List.any_eq_true

theorem mem_opmap_of_mem_blockRows {r : OpRow} (h : r ∈ blockRows) : r ∈ opmap := List.mem_append_left _ h

/-- A word that a row of the default map selects decodes to what the row builds of it. -/
theorem decodeWord_of_selects {r : OpRow} (hr : r ∈ opmap) {w : Word} (h : r.selects w = true) :
    decodeWord w = some (r.build w) := by
  rw [decodeWord_eq_some_iff, opRowOf_build r hr w]
  exact ⟨h, rfl⟩

/-- A match and mask test on words is the one on their numbers. -/
theorem word_and_eq_iff (w m p : Word) : w &&& m = p ↔ w.toNat &&& m.toNat = p.toNat := by
  rw [← BitVec.toNat_inj, BitVec.toNat_and]

/-- The block's three patterns (R91, R92, R93). -/
theorem claimed_iff_patterns (w : Word) :
    claimed w = true ↔ w &&& 0xF000 = 0xD000 ∨ w &&& 0xF0FF = 0x00E0 ∨ w &&& 0xF0FF = 0xF033 := by
  have hmask : (∃ r ∈ blockRows, r.selects w = true) ↔ ∃ r ∈ blockRows, w.toNat &&& r.mask = r.pattern :=
    exists_congr fun r => and_congr_right fun hr => OpRow.selects_iff_and_mask (mem_opmap_of_mem_blockRows hr) w
  rw [claimed_iff_exists_row, hmask]
  simp [blockRows, OpRow.mask, OpRow.pattern, word_and_eq_iff]

end Sys2Proof

namespace Sys2Proof.Machine

/-- A row of the block builds an instruction that is a command of the block. -/
theorem commandEffect_build_isSome (s : State) (w : Word) :
    ∀ r ∈ blockRows, ∃ b, commandEffect (r.build w) s = some b := by
  refine List.forall_iff_forall_mem.1 ?_
  exact ⟨⟨_, rfl⟩, ⟨_, rfl⟩, ⟨_, rfl⟩⟩

/-- The row of a command is a row of the block. -/
theorem opRowOf_mem_blockRows {i : Instr} {s : State} {b : BlockResult} (h : commandEffect i s = some b) :
    opRowOf i ∈ blockRows := by
  obtain ⟨x, y, n, rfl, -⟩ | ⟨rfl, -⟩ | ⟨x, rfl, -⟩ := commandEffect_cases h
  · exact List.getElem_mem (l := blockRows) (n := 0) (by decide)
  · exact List.getElem_mem (l := blockRows) (n := 1) (by decide)
  · exact List.getElem_mem (l := blockRows) (n := 2) (by decide)

/-- The block claims exactly the words of its commands. -/
theorem claimed_iff_command (w : Word) (s : State) :
    claimed w = true ↔ ∃ i b, decodeWord w = some i ∧ commandEffect i s = some b := by
  rw [claimed_iff_exists_row]
  constructor
  · rintro ⟨r, hr, hsel⟩
    obtain ⟨b, hb⟩ := commandEffect_build_isSome s w r hr
    exact ⟨_, b, decodeWord_of_selects (mem_opmap_of_mem_blockRows hr) hsel, hb⟩
  · rintro ⟨i, b, hdec, hb⟩
    exact ⟨opRowOf i, opRowOf_mem_blockRows hb, (decodeWord_eq_some_iff.1 hdec).1⟩

theorem commandEffect_eq_none_of_not_claimed {w : Word} (h : claimed w = false) {i : Instr}
    (hdec : decodeWord w = some i) (s : State) : commandEffect i s = none := by
  by_contra hne
  obtain ⟨b, hb⟩ := Option.ne_none_iff_exists'.1 hne
  rw [(claimed_iff_command w s).2 ⟨i, b, hdec, hb⟩] at h
  cases h

/-! ### What the block answers (R88) -/

/-- Whether a block command ended in a fault. -/
def BlockResult.isFault : BlockResult → Bool
  | .done _ => false
  | .fault _ => true

/-- The answer to a command: claimed, with a fault or none. -/
theorem rspPayload_of_command {w : Word} {i : Instr} {s : State} {b : BlockResult} (hdec : decodeWord w = some i)
    (hb : blockCommand i s = some b) :
    (rspPayload w s).claimed = true ∧ (rspPayload w s).fault = b.isFault := by
  rw [rspPayload, hdec, Option.bind_some, hb, Option.map_some]
  cases b with
  | done t => cases i <;> exact ⟨rfl, rfl⟩
  | fault e => cases i <;> exact ⟨rfl, rfl⟩

/-- The answer to a word that is none of the block's. -/
theorem rspPayload_of_not_claimed {w : Word} (h : claimed w = false) (s : State) :
    rspPayload w s = ⟨false, false, false⟩ := by
  rw [rspPayload]
  cases hdec : decodeWord w with
  | none => rfl
  | some i =>
    have hb : blockCommand i s = none := by
      rw [blockCommand, commandEffect_eq_none_of_not_claimed h hdec, ite_self]
    rw [Option.bind_some, hb]; rfl

theorem rspPayload_claimed {s : State} (hrun : s.Running) (w : Word) : (rspPayload w s).claimed = claimed w := by
  cases hc : claimed w with
  | false => rw [rspPayload_of_not_claimed hc]
  | true =>
    obtain ⟨i, b, hdec, hb⟩ := (claimed_iff_command w s).1 hc
    exact (rspPayload_of_command hdec (blockCommand_eq_some_iff.2 ⟨hrun, hb⟩)).1

/-! ### What the transfers do to the host core (R26, R40) -/

/-- The host core's state after the transfers, one by one. -/
def replay (ps : List PortTransfer) (s : State) : State := ps.foldl (fun u p => p.apply u) s

theorem replay_append (ps qs : List PortTransfer) (s : State) : replay (ps ++ qs) s = replay qs (replay ps s) :=
  List.foldl_append

theorem replay_memRd (s : State) (base : Nat) (bytes : List Byte) : replay (byteTransfers .memRd base bytes) s = s := by
  induction bytes generalizing base with
  | nil => rfl
  | cons b bytes ih => exact ih (base + 1)

theorem replay_memWr (s : State) (base : Nat) (bytes : List Byte) :
    replay (byteTransfers .memWr base bytes) s = { s with mem := s.mem.writeBytes base bytes } := by
  induction bytes generalizing s base with
  | nil => rfl
  | cons b bytes ih => exact ih { s with mem := s.mem.write base b } (base + 1)

theorem acceptsCommand_of_not_running {s : State} (h : ¬ s.Running) : s.acceptsCommand = false :=
  Bool.eq_false_of_not_eq_true (mt (State.acceptsCommand_iff s).1 h)

theorem blockRsp_of_not_running {s : State} (h : ¬ s.Running) (w : Word) : blockRsp w s = none := by
  rw [blockRsp, acceptsCommand_of_not_running h]; rfl

theorem blockTransfers_of_not_running {s : State} (h : ¬ s.Running) (w : Word) : blockTransfers w s = [] := by
  rw [blockTransfers, blockRsp_of_not_running h]

/-- Settles O56: the block asks whether it accepts a command before it does anything (R227). -/
theorem latchedBlockAcceptsNoCommand : Obligations.LatchedBlockAcceptsNoCommand := by
  refine fun s h => ⟨fun i => ?_, fun w => ⟨blockTransfers_of_not_running h w, blockRsp_of_not_running h w⟩⟩
  rw [blockCommand, acceptsCommand_of_not_running h]; rfl

/-- `cmd` and `rsp` change nothing: the block does what the transfers between them do. -/
theorem replay_blockTransfers {s : State} (hrun : s.Running) {w : Word} {i : Instr} (hdec : decodeWord w = some i) :
    replay (blockTransfers w s) s = replay (commandTransfers i s) s := by
  rw [blockTransfers_of_running hrun, wordTransfers, hdec, replay_append, replay_append]
  rfl

/-- No transfer stands between them for what is no command. -/
theorem commandTransfers_of_no_effect {i : Instr} {s : State} (h : commandEffect i s = none) :
    commandTransfers i s = [] := by
  cases i with
  | drw | bcd => cases h
  | _ => rfl

theorem replay_of_not_claimed {w : Word} (h : claimed w = false) (s : State) : replay (blockTransfers w s) s = s := by
  by_cases hrun : s.Running
  · cases hdec : decodeWord w with
    | none => rw [blockTransfers_of_running hrun, wordTransfers, hdec]; rfl
    | some i =>
      rw [replay_blockTransfers hrun hdec,
        commandTransfers_of_no_effect (commandEffect_eq_none_of_not_claimed h hdec s)]
      rfl
  · rw [blockTransfers_of_not_running hrun]; rfl

/-- The host core waits for the block and completes its command (R29, R160). -/
theorem exec_eq_completeCommand {i : Instr} {s : State} {b : BlockResult} (h : commandEffect i s = some b) :
    exec i s = completeCommand s b := by
  obtain ⟨x, y, n, rfl, rfl⟩ | ⟨rfl, rfl⟩ | ⟨x, rfl, rfl⟩ := commandEffect_cases h <;> rfl

/-- Settles O5: the patterns are the masks of the block's rows, and what it does not claim is no command. -/
theorem blockClaims : Obligations.BlockClaims := by
  refine ⟨claimed_iff_patterns, fun w s hrun => ⟨_, blockRsp_of_running hrun w, rspPayload_claimed hrun w⟩,
    fun w s h => ⟨fun hrun => ?_, replay_of_not_claimed h s⟩, fun i s b hb => ?_⟩
  · rw [blockRsp_of_running hrun, rspPayload_of_not_claimed h]
  · rw [exec_eq_completeCommand hb]
    cases b <;> rfl

/-- What a command leaves of the host core's state: all but the display, which is the block's own (R20, R40). -/
def BlockResult.hostState (s : State) : BlockResult → State
  | .done t => { t with fb := s.fb }
  | .fault _ => s

/-- Replaying a command's transfers gives the registers and memory it leaves, or nothing new where it faults. -/
theorem replay_commandTransfers {i : Instr} {s : State} {b : BlockResult} (h : commandEffect i s = some b) :
    replay (commandTransfers i s) s = b.hostState s := by
  obtain ⟨x, y, n, rfl, rfl⟩ | ⟨rfl, rfl⟩ | ⟨x, rfl, rfl⟩ := commandEffect_cases h
  · rw [commandTransfers]
    cases hd : drwCommand x y n s with
    | done t =>
      obtain ⟨-, f, ht⟩ := drwCommand_done hd
      have hvf : t.reg vf = flagByte f := by rw [ht]; exact State.reg_setReg_same s vf _
      simp only [replay_append, replay_memRd, hvf]
      rw [ht]; rfl
    | fault e => rfl
  · rfl
  · rw [commandTransfers]
    cases hfits : fits s.i.toNat 3 with
    | true =>
      rw [bcdCommand_of_fits hfits]
      simp only [replay_append, replay_memWr]; rfl
    | false => rw [bcdCommand_of_not_fits hfits]; rfl

/-- Settles O33, by the replay of each command's transfers and the fault bit of its answer. -/
theorem portTransfersAccountForCommand : Obligations.PortTransfersAccountForCommand := by
  intro w i s b hdec hb
  obtain ⟨hrun, heffect⟩ := blockCommand_eq_some_iff.1 hb
  have hreplay := (replay_blockTransfers hrun hdec).trans (replay_commandTransfers heffect)
  have hrsp : blockRsp w s = some (rspPayload w s) := blockRsp_of_running hrun w
  have hfault := (rspPayload_of_command hdec hb).2
  cases b with
  | done t => exact ⟨hreplay, _, hrsp, hfault⟩
  | fault e => exact ⟨hreplay, _, hrsp, hfault⟩

end Sys2Proof.Machine
end

section
/-! PROOF. The invariant: reset meets it, and every step, host call and placed font keeps it, under every open parameter
(spec/10_state.md section 8; spec/60_exceptions.md R220 to R227). -/

namespace Sys2Proof.Machine

/-! ### A fault that is taken tells the truth (R221 to R223) -/

/-- What a fault says of the state it is raised from: a 16-bit address outside memory, a full or an empty stack. -/
def Trap.TrueOf (e : Trap) (s : State) : Prop :=
  match e with
  | .bounds a => 4096 ≤ a ∧ a < 65536
  | .stackOverflow => s.sp = 16
  | .stackUnderflow => s.sp = 0

theorem trueOf_bounds_firstOutside {base : Nat} (h : base < 65536) (s : State) :
    (Trap.bounds (firstOutside base)).TrueOf s :=
  ⟨firstOutside_ge base, by rw [firstOutside]; omega⟩

theorem Raises.trueOf {i : Instr} {s : State} {e : Trap} (h : Raises i s e) : e.TrueOf s := by
  cases i with
  | drw | bcd | ldMemVx | ldVxMem => obtain ⟨-, rfl⟩ := h; exact trueOf_bounds_firstOutside s.i.isLt s
  | call | ret => obtain ⟨hsp, rfl⟩ := h; exact hsp
  | _ => exact h.elim

theorem faultTruth_of_running {s : State} (h : s.Running) : s.FaultTruth ↔ s.flt.addr = 0 := by
  rw [State.FaultTruth, show s.flt.kind = .none from h]

theorem faultTruth_raise {s : State} (hrun : s.Running) {e : Trap} (h : e.TrueOf s) : (s.raise e).FaultTruth := by
  rw [State.raise_of_running hrun]
  cases e with
  | bounds a =>
    obtain ⟨hge, hlt⟩ := h
    show 4096 ≤ (BitVec.ofNat 16 a).toNat
    rw [BitVec.toNat_ofNat]
    omega
  | stackOverflow => exact h
  | stackUnderflow => exact h

/-- A running machine keeps the invariant by taking a fault that is true of it. -/
theorem inv_raise {s : State} (hinv : s.Inv) (hrun : s.Running) {e : Trap} (h : e.TrueOf s) : (s.raise e).Inv :=
  ⟨by rw [State.raise_mem]; exact hinv.1, faultTruth_raise hrun h⟩

/-- Fault truth goes over to any state with the same `FLT`, from a running one. -/
theorem faultTruth_of_flt_eq {s t : State} (hrun : s.Running) (h : s.FaultTruth) (hflt : t.flt = s.flt) :
    t.FaultTruth := by
  have htrun : t.Running := by rw [State.Running, hflt]; exact hrun
  rw [faultTruth_of_running htrun, hflt]
  exact (faultTruth_of_running hrun).1 h

/-! ### Memory stays canonical -/

theorem Footprint.mem_eq_or_store {i : Instr} {s t : State} (h : Footprint i s t) :
    t.mem = s.mem ∨ (∃ x, i = .bcd x) ∨ ∃ x, i = .ldMemVx x := by
  cases i with
  | bcd x => exact .inr (.inl ⟨x, rfl⟩)
  | ldMemVx x => exact .inr (.inr ⟨x, rfl⟩)
  | cls | jp => cases h; exact .inl rfl
  | ldVxK => obtain rfl | ⟨_, rfl⟩ := h <;> exact .inl rfl
  | drw | ret | call => obtain ⟨_, _, rfl⟩ := h; exact .inl rfl
  | _ => obtain ⟨_, rfl⟩ := h; exact .inl rfl

theorem wf_exec_bcd {x : RegIx} {s t : State} (hwf : s.mem.wf = true) (h : exec (.bcd x) s = .next t) :
    t.mem.wf = true := by
  obtain ⟨hfits, rfl⟩ | ⟨-, rfl⟩ := execBcd_cases h
  · rw [fits_iff] at hfits
    exact Memory.wf_writeBytes _ hwf (by rw [unpack_length]; omega)
  · rwa [State.raise_mem]

theorem wf_exec_ldMemVx {x : RegIx} {s t : State} (hwf : s.mem.wf = true) (h : exec (.ldMemVx x) s = .next t) :
    t.mem.wf = true := by
  obtain ⟨hfits, rfl⟩ | ⟨-, rfl⟩ := execLdMemVx_cases h
  · rw [fits_iff] at hfits
    exact State.storeRegs_wf hwf (by omega)
  · rwa [State.raise_mem]

/-- A completed instruction keeps memory canonical: the two that store check their addresses. -/
theorem wf_of_footprint {P : Params} {i : Instr} {s t : State} (hwf : s.mem.wf = true)
    (hexec : execWith P i s = .next t) (h : Footprint i s t) : t.mem.wf = true := by
  obtain hmem | ⟨x, rfl⟩ | ⟨x, rfl⟩ := h.mem_eq_or_store
  · rwa [hmem]
  · exact wf_exec_bcd hwf hexec
  · exact wf_exec_ldMemVx hwf hexec

/-! ### Steps (R160) -/

theorem execWith_keeps_inv {P : Params} {i : Instr} {s t : State} (hinv : s.Inv) (hrun : s.Running)
    (h : execWith P i s = .next t) : t.Inv := by
  obtain hfoot | ⟨e, he, rfl⟩ | ⟨x, -, -, rfl⟩ := execWith_cases h
  · exact ⟨wf_of_footprint hinv.1 h hfoot, faultTruth_of_flt_eq hrun hinv.2 hfoot.flt⟩
  · exact inv_raise hinv hrun he.trueOf
  · have hreg : (s.reg x).toNat < 65536 := by omega
    exact inv_raise hinv hrun (trueOf_bounds_firstOutside hreg s)

/-- Every step keeps the invariant, under every open parameter. -/
theorem stepWith_keeps_inv {P : Params} {s t : State} (hinv : s.Inv) (h : stepWith P s = .next t) : t.Inv := by
  obtain ⟨hrun, ⟨-, rfl⟩ | ⟨-, -, rfl⟩ | ⟨i, -, -, hexec⟩⟩ := stepWith_cases h
  · exact inv_raise hinv hrun (trueOf_bounds_firstOutside s.pc.isLt s)
  · exact hinv
  · exact execWith_keeps_inv hinv hrun hexec

/-- Settles O15: a step completes with `FLT` as it was and every store inside memory, or takes a fault that is true. -/
theorem stepKeepsInvariant : Obligations.StepKeepsInvariant := fun _ _ => stepWith_keeps_inv

/-! ### Host calls, the font, and every run -/

theorem inv_reset_with_draws (d : Nat) : ({ State.reset with draws := d } : State).Inv := ⟨Memory.wf_nil, rfl⟩

/-- Settles O14, by the values after reset. -/
theorem resetMeetsInvariant : Obligations.ResetMeetsInvariant := inv_reset_with_draws 0

theorem applyHostCall_keeps_inv {c : HostCall} {s t : State} (hinv : s.Inv) (h : applyHostCall c s = .ok t) :
    t.Inv := by
  obtain ⟨bytes, -, hlen, rfl⟩ | ⟨-, rfl⟩ | ⟨index, pressed, -, -, ht⟩ | ⟨-, rfl⟩ := applyHostCall_cases h
  · have hb : Config.progBase + bytes.length ≤ 4096 := by simp only [Config.progBase, Config.maxImage] at hlen ⊢; omega
    exact ⟨Memory.wf_writeBytes bytes hinv.1 hb, hinv.2⟩
  · exact hinv
  · rw [ht]; exact hinv
  · exact inv_reset_with_draws s.draws

theorem placeFont_keeps_inv (image : Vector Byte 80) {s : State} (hinv : s.Inv) : (placeFont image s).Inv :=
  ⟨wf_placeFont image hinv.1, hinv.2⟩

/-- Settles O16, by the four calls. -/
theorem hostCallsKeepInvariant : Obligations.HostCallsKeepInvariant :=
  ⟨fun _ _ _ => applyHostCall_keeps_inv, fun image _ => placeFont_keeps_inv image⟩

theorem move_keeps_inv {P : Params} {p q : Phase} {s t : State} (hinv : s.Inv) (h : Move P p s q t) : t.Inv := by
  cases h with
  | step h => exact stepWith_keeps_inv hinv h
  | call c h => exact applyHostCall_keeps_inv hinv h
  | placeFont image => exact placeFont_keeps_inv image hinv

theorem reachableIn_inv {P : Params} {p : Phase} {s : State} (h : ReachableIn P p s) : s.Inv := by
  induction h with
  | reset => exact resetMeetsInvariant
  | move _ hmove ih => exact move_keeps_inv ih hmove

/-- Settles O17, by induction on the run. -/
theorem everyRunMeetsInvariant : Obligations.EveryRunMeetsInvariant := fun _ _ ⟨_, h⟩ => reachableIn_inv h

end Sys2Proof.Machine
end

section
/-! PROOF. Who writes what: the named writers of each field, and what a program can see of the display
(spec/10_state.md R23; spec/48_host_context.md). -/

namespace Sys2Proof.Machine

/-! ### The named writers of each field -/

/-- Every field of `t` that differs from `s` is one whose named writers the instruction `o` is among. -/
def OnlyNamedWrites (o : Option Instr) (s t : State) : Prop :=
  (t.i ≠ s.i → ∃ i, o = some i ∧ ((∃ nnn, i = .ldI nnn) ∨ (∃ x, i = .addI x) ∨ ∃ x, i = .ldF x)) ∧
  (t.stack ≠ s.stack → ∃ nnn, o = some (.call nnn)) ∧
  (t.sp ≠ s.sp → o = some .ret ∨ ∃ nnn, o = some (.call nnn)) ∧
  (t.dt ≠ s.dt → ∃ x, o = some (.ldDtVx x)) ∧
  (t.st ≠ s.st → ∃ x, o = some (.ldStVx x)) ∧
  (t.mem ≠ s.mem → ∃ x, o = some (.bcd x) ∨ o = some (.ldMemVx x)) ∧
  (t.draws ≠ s.draws → ∃ x kk, o = some (.rnd x kk)) ∧
  t.key = s.key

/-- Taking a fault and moving `PC` write none of these fields. -/
theorem onlyNamedWrites_raise (o : Option Instr) (s : State) (e : Trap) : OnlyNamedWrites o s (s.raise e) := by
  simp [OnlyNamedWrites]

theorem onlyNamedWrites_advance (o : Option Instr) (s : State) : OnlyNamedWrites o s s.advance := by
  simp [OnlyNamedWrites]

/-- A completed instruction writes what it is named for: its footprint shows every other field unchanged. -/
theorem Footprint.onlyNamedWrites {i : Instr} {s t : State} (h : Footprint i s t) : OnlyNamedWrites (some i) s t := by
  cases i with
  | cls | jp => cases h; simp [OnlyNamedWrites]
  | ldVxK => obtain rfl | ⟨_, rfl⟩ := h <;> simp [OnlyNamedWrites]
  | drw | ret | call => obtain ⟨_, _, rfl⟩ := h; simp [OnlyNamedWrites]
  | _ => obtain ⟨_, rfl⟩ := h; simp [OnlyNamedWrites]

/-- Settles O19, by the three ways a step goes and the footprint of an instruction. -/
theorem onlyNamedInstructionsWrite : Obligations.OnlyNamedInstructionsWrite := by
  intro s t h
  show OnlyNamedWrites (decodeWord s.fetchWord) s t
  obtain ⟨-, ⟨-, rfl⟩ | ⟨-, -, rfl⟩ | ⟨i, -, hdec, hexec⟩⟩ := step_cases h
  · exact onlyNamedWrites_raise _ s _
  · exact onlyNamedWrites_advance _ s
  · rw [hdec]
    obtain hfoot | ⟨e, -, rfl⟩ := exec_cases hexec
    · exact hfoot.onlyNamedWrites
    · exact onlyNamedWrites_raise _ s e

/-! ### Two machines that differ in the display alone (R23) -/

/-- The machine with another display. -/
def State.withFb (s : State) (fb : Display) : State := { s with fb := fb }

theorem State.raise_withFb (s : State) (fb : Display) (e : Trap) : (s.withFb fb).raise e = (s.raise e).withFb fb := by
  unfold State.raise
  split_ifs with h h' h'
  · rfl
  · exact absurd h h'
  · exact absurd h' h
  · rfl

theorem State.storeRegs_withFb (s : State) (fb : Display) (base count : Nat) :
    (s.withFb fb).storeRegs base count = (s.storeRegs base count).withFb fb := by
  induction count with
  | zero => rfl
  | succ n ih => rw [State.storeRegs, ih]; rfl

theorem State.loadRegs_withFb (s : State) (fb : Display) (base count : Nat) :
    (s.withFb fb).loadRegs base count = (s.loadRegs base count).withFb fb := by
  induction count with
  | zero => rfl
  | succ n ih => rw [State.loadRegs, ih]; rfl

theorem skipOnKey_withFb {policy : Config.KeyPolicy} {want : Bool} {x : RegIx} {s t : State}
    (h : skipOnKey policy want x s = .next t) (fb : Display) :
    skipOnKey policy want x (s.withFb fb) = .next (t.withFb fb) := by
  have hkey : (s.withFb fb).keyState policy ((s.withFb fb).reg x) = s.keyState policy (s.reg x) := rfl
  rw [skipOnKey] at h ⊢
  rw [hkey]
  cases hk : s.keyState policy (s.reg x) with
  | held pressed => rw [hk] at h; cases h; rfl
  | boundsError => rw [hk] at h; cases h; exact congrArg _ (s.raise_withFb fb _)
  | refused => rw [hk] at h; cases h

theorem waitKey_withFb (sel : Config.KeySel) (x : RegIx) (s : State) (fb : Display) :
    waitKey sel x (s.withFb fb) = (waitKey sel x s).withFb fb := by
  cases hsel : sel s.key with
  | none => rw [waitKey_of_none hsel, waitKey_of_none (s := s.withFb fb) hsel]
  | some j => rw [waitKey_of_some hsel, waitKey_of_some (s := s.withFb fb) hsel]; rfl

/-- An instruction that does not touch the display does the same whatever it shows. -/
theorem exec_withFb {i : Instr} {s t : State} (hdrw : ¬ ∃ x y n, i = .drw x y n) (hcls : i ≠ .cls)
    (h : exec i s = .next t) (fb : Display) : exec i (s.withFb fb) = .next (t.withFb fb) := by
  cases i with
  | drw x y n => exact absurd ⟨x, y, n, rfl⟩ hdrw
  | cls => exact absurd rfl hcls
  | bcd x =>
    obtain ⟨hfits, rfl⟩ | ⟨hfits, rfl⟩ := execBcd_cases h
    · rw [exec, execBcd, bcdCommand_of_fits (s := s.withFb fb) hfits]; rfl
    · rw [exec_bcd_of_not_fits (s := s.withFb fb) hfits, State.raise_withFb]; rfl
  | ldMemVx x =>
    obtain ⟨hfits, rfl⟩ | ⟨hfits, rfl⟩ := execLdMemVx_cases h
    · exact (exec_ldMemVx_of_fits (s := s.withFb fb) hfits).trans (by rw [State.storeRegs_withFb]; rfl)
    · rw [exec_ldMemVx_of_not_fits (s := s.withFb fb) hfits, State.raise_withFb]; rfl
  | ldVxMem x =>
    obtain ⟨hfits, rfl⟩ | ⟨hfits, rfl⟩ := execLdVxMem_cases h
    · exact (exec_ldVxMem_of_fits (s := s.withFb fb) hfits).trans (by rw [State.loadRegs_withFb]; rfl)
    · rw [exec_ldVxMem_of_not_fits (s := s.withFb fb) hfits, State.raise_withFb]; rfl
  | call nnn =>
    obtain ⟨hsp, -⟩ | ⟨hsp, rfl⟩ := execCall_cases h
    · rw [exec_call_of_lt hsp] at h
      cases h
      exact exec_call_of_lt (s := s.withFb fb) hsp nnn
    · rw [exec_call_of_full (s := s.withFb fb) hsp, State.raise_withFb]
  | ret =>
    obtain ⟨hsp, -⟩ | ⟨hsp, rfl⟩ := execRet_cases h
    · rw [exec_ret_of_pos hsp] at h
      cases h
      exact exec_ret_of_pos (s := s.withFb fb) hsp
    · rw [exec_ret_of_empty (s := s.withFb fb) hsp, State.raise_withFb]
  | skp x => exact skipOnKey_withFb h fb
  | sknp x => exact skipOnKey_withFb h fb
  | ldVxK x => cases h; exact congrArg _ (waitKey_withFb _ x s fb)
  | _ => cases h; rfl

/-- What another display can change of an instruction's or a step's next state: the display, and VF if it was a DRW. -/
def AlikeButDisplay (drew : Prop) (t t' : State) : Prop :=
  t' = { t with fb := t'.fb, v := t'.v } ∧ (∀ j : RegIx, j ≠ 15 → t'.reg j = t.reg j) ∧ (¬ drew → t'.v = t.v)

theorem alikeButDisplay_withFb (drew : Prop) (t : State) (fb : Display) : AlikeButDisplay drew t (t.withFb fb) :=
  ⟨rfl, fun _ _ => rfl, fun _ => rfl⟩

/-- A completed DRW writes no register but VF (R119). -/
theorem Footprint.reg_of_drw {x y : RegIx} {n : Fin 16} {s t : State} (h : Footprint (.drw x y n) s t) {j : RegIx}
    (hj : j ≠ 15) : t.reg j = s.reg j := by
  obtain ⟨_, f, rfl⟩ := h
  exact s.reg_setReg_ne (x := vf) (flagByte f) hj.symm

/-- Two DRW that differ in the display alone both complete, or both fault (R117). -/
theorem exec_drw_withFb {x y : RegIx} {n : Fin 16} {s t : State} (h : exec (.drw x y n) s = .next t) (fb : Display) :
    ∃ t' : State, exec (.drw x y n) (s.withFb fb) = .next t' ∧ AlikeButDisplay True t t' := by
  obtain ⟨hfits, hfoot⟩ | ⟨hfits, rfl⟩ := execDrw_cases h
  · have hin : SpriteInMemory (s.withFb fb) n := (spriteInMemory_iff_fits s n).2 hfits
    obtain ⟨t', hexec, hfoot'⟩ := exec_drw_of_spriteInMemory hin x y
    refine ⟨t', hexec, ?_, fun j hj => (hfoot'.reg_of_drw hj).trans (hfoot.reg_of_drw hj).symm,
      fun hnot => absurd trivial hnot⟩
    obtain ⟨_, _, rfl⟩ := hfoot
    obtain ⟨_, _, rfl⟩ := hfoot'
    rfl
  · have hout : ¬ SpriteInMemory (s.withFb fb) n :=
      fun hin => absurd ((spriteInMemory_iff_fits s n).1 hin) (by simp [hfits])
    refine ⟨_, exec_drw_of_not_spriteInMemory hout x y, ?_⟩
    rw [State.raise_withFb]
    exact alikeButDisplay_withFb _ _ fb

theorem exec_of_other_display {i : Instr} {s t : State} (h : exec i s = .next t) (fb : Display) :
    ∃ t' : State, exec i (s.withFb fb) = .next t' ∧ AlikeButDisplay (∃ x y n, i = .drw x y n) t t' := by
  by_cases hdrw : ∃ x y n, i = .drw x y n
  · obtain ⟨x, y, n, rfl⟩ := hdrw
    obtain ⟨t', hexec, ht, hreg, -⟩ := exec_drw_withFb h fb
    exact ⟨t', hexec, ht, hreg, fun hnot => absurd ⟨x, y, n, rfl⟩ hnot⟩
  · by_cases hcls : i = .cls
    · subst hcls
      cases h
      exact ⟨_, exec_cls _, rfl, fun _ _ => rfl, fun _ => rfl⟩
    · exact ⟨_, exec_withFb hdrw hcls h fb, alikeButDisplay_withFb _ t fb⟩

/-- A running machine's step runs the instruction it fetched. -/
theorem stepWith_of_fetchDecode_instr {P : Params} {s : State} {i : Instr} (h : fetchDecode s P.opmap = .instr i) :
    stepWith P s = execWith P i s := by
  rw [stepWith, h]

theorem step_of_fetchDecode_instr {s : State} {i : Instr} (h : fetchDecode s = .instr i) : step s = exec i s :=
  (stepWith_of_fetchDecode_instr (P := Params.default) h).trans (execWith_default i s)

/-- Settles O20: the fetch sees no display, and no instruction but DRW and CLS does. -/
theorem displayIsSeenThroughCollisionFlagOnly : Obligations.DisplayIsSeenThroughCollisionFlagOnly := by
  intro s t fb h
  show ∃ t' : State, step (s.withFb fb) = .next t' ∧
    AlikeButDisplay (∃ x y n, decodeWord s.fetchWord = some (.drw x y n)) t t'
  obtain ⟨hrun, ⟨hout, rfl⟩ | ⟨hin, hdec, rfl⟩ | ⟨i, hin, hdec, hexec⟩⟩ := step_cases h
  · have hfetch := fetchDecode_of_outside (s := s.withFb fb) (om := OpMap.default) hrun hout
    refine ⟨_, step_of_fetchDecode_outside hfetch, ?_⟩
    rw [State.raise_withFb]
    exact alikeButDisplay_withFb _ _ fb
  · have hfetch := fetchDecode_of_unknown (s := s.withFb fb) (om := OpMap.default) hrun hin hdec
    exact ⟨_, step_of_fetchDecode_unknown hfetch, alikeButDisplay_withFb _ s.advance fb⟩
  · have hfetch := fetchDecode_of_instr (s := s.withFb fb) (om := OpMap.default) hrun hin hdec
    obtain ⟨t', hexec', halike⟩ := exec_of_other_display hexec fb
    refine ⟨t', (step_of_fetchDecode_instr hfetch).trans hexec', ?_⟩
    simpa only [hdec, Option.some.injEq] using halike

end Sys2Proof.Machine
end

section
/-! PROOF. The step and its open parameters (spec/00_scope.md R10; spec/48_host_context.md R160 to R162; R227). -/

namespace Sys2Proof.Machine

/-! ### The step of a running machine -/

theorem decodeWord_of_decode {b0 b1 : Byte} {rest : List Byte} {i : Instr}
    (h : decode [b0, b1] = .ok (i, rest)) : decodeWord (wordOfBytes b0 b1) = some i := by
  rw [decode] at h
  cases hdec : decodeWord (wordOfBytes b0 b1) with
  | none => rw [hdec] at h; cases h
  | some j => rw [hdec] at h; cases h; rfl

/-- Settles O7: the two bytes at `PC` are the word that the fetch decodes. -/
theorem stepRunsDecodedInstruction : Obligations.StepRunsDecodedInstruction := by
  intro s i hrun hpc _ hbytes
  have hdec : decodeWord s.fetchWord = some i := decodeWord_of_decode hbytes
  exact step_of_fetchDecode_instr ((fetchDecode_eq_instr_iff s _ i).2 ⟨hrun, hpc, hdec⟩)

theorem step_ne_next_of_latched {s : State} (h : ¬ s.Running) (t : State) : step s ≠ .next t :=
  fun hstep => h (step_cases hstep).1

theorem stepReturn_of_latched {s : State} (h : ¬ s.Running) : stepReturn s = some .refused := by
  rw [stepReturn, fetchDecode_of_latched h]

/-- No host call but `reset()` writes `FLT` (R203, R227). -/
theorem flt_of_applyHostCall {c : HostCall} {s t : State} (h : applyHostCall c s = .ok t) (hc : c ≠ .reset) :
    t.flt = s.flt := by
  obtain ⟨bytes, -, -, rfl⟩ | ⟨-, rfl⟩ | ⟨index, pressed, -, -, ht⟩ | ⟨hreset, -⟩ := applyHostCall_cases h
  · rfl
  · rfl
  · rw [ht]
  · exact absurd hreset hc

/-- Settles O9, by the step from a latched machine and the four host calls. -/
theorem latchedFaultIsFinal : Obligations.LatchedFaultIsFinal := fun _ h =>
  ⟨step_ne_next_of_latched h, stepReturn_of_latched h, fun _ _ => flt_of_applyHostCall, _, rfl, rfl, rfl⟩

/-! ### The open parameters (R10) -/

/-- A running machine with `PC` in memory runs what the opcode map reads, or skips an unknown word. -/
theorem stepWith_of_running {P : Params} {s : State} (hrun : s.Running) (hpc : s.pc.toNat ≤ 4094) :
    stepWith P s = match decodeWord s.fetchWord P.opmap with
      | some i => execWith P i s
      | none => .next { s with pc := s.pc + 2 } := by
  have hfits : fits s.pc.toNat 2 = true := (fits_iff _ _).2 (.inr (by omega))
  cases hdec : decodeWord s.fetchWord P.opmap with
  | some i => exact stepWith_of_fetchDecode_instr (fetchDecode_of_instr hrun hfits hdec)
  | none => rw [stepWith, fetchDecode_of_unknown hrun hfits hdec]; rfl

/-- Only the key skips see the policy for key numbers, and only wait-for-key the key selected. -/
theorem execWith_congr {P Q : Params} {i : Instr} (s : State)
    (hskip : (∀ x, i ≠ .skp x ∧ i ≠ .sknp x) ∨ P.keyIdx = Q.keyIdx)
    (hwait : (∀ x, i ≠ .ldVxK x) ∨ P.keySel = Q.keySel) : execWith P i s = execWith Q i s := by
  cases i with
  | skp x =>
    have hkey : P.keyIdx = Q.keyIdx := hskip.resolve_left fun h => (h x).1 rfl
    rw [execWith, execWith, hkey]
  | sknp x =>
    have hkey : P.keyIdx = Q.keyIdx := hskip.resolve_left fun h => (h x).2 rfl
    rw [execWith, execWith, hkey]
  | ldVxK x =>
    have hsel : P.keySel = Q.keySel := hwait.resolve_left fun h => h x rfl
    rw [execWith, execWith, hsel]
  | _ => rfl

/-- Settles O58: `step` is `stepWith` at the defaults by definition. -/
theorem openParametersActWhereNamed : Obligations.OpenParametersActWhereNamed :=
  ⟨fun _ _ => stepWith_of_running, fun _ _ _ s => execWith_congr s, execWith_default, fun _ => rfl⟩

/-! ### Key skips and wait for key under any parameters (R187, R188, R192) -/

theorem skipOnKey_of_held {policy : Config.KeyPolicy} (want : Bool) {x : RegIx} {s : State} {pressed : Bool}
    (h : 16 ≤ (s.reg x).toNat) (hp : policy (s.reg x) s.key = .held pressed) :
    skipOnKey policy want x s = .next { s with pc := if pressed = want then s.pc + 4 else s.pc + 2 } := by
  rw [skipOnKey, State.keyState_of_ge policy h, hp, ← s.skipIf_beq]

/-- The bounds error of a key number, which is below 256, records 4096 (log entry 19). -/
theorem skipOnKey_of_boundsError {policy : Config.KeyPolicy} (want : Bool) {x : RegIx} {s : State}
    (hrun : s.Running) (h : 16 ≤ (s.reg x).toNat) (hp : policy (s.reg x) s.key = .boundsError) :
    skipOnKey policy want x s = .next (WithFault s .bounds 4096) := by
  have hmax : max (s.reg x).toNat 4096 = 4096 := by omega
  rw [skipOnKey, State.keyState_of_ge policy h, hp]
  simp only [State.raise_bounds_of_running hrun, hmax]
  rfl

/-- Settles O59: SKP and SKNP are one key skip, and a key number 0 to 15 never reaches the policy. -/
theorem keySkipsUnderEveryPolicy : Obligations.KeySkipsUnderEveryPolicy := by
  intro P s x
  refine ⟨fun hle => ?_, fun pressed hgt hp => ⟨skipOnKey_of_held true hgt hp, skipOnKey_of_held false hgt hp⟩,
    fun hgt hp hrun => ⟨skipOnKey_of_boundsError true hrun hgt hp, skipOnKey_of_boundsError false hrun hgt hp⟩,
    fun hgt hp => ⟨skipOnKey_of_refused true hgt hp, skipOnKey_of_refused false hgt hp⟩⟩
  have hj : (s.reg x).toNat = (⟨(s.reg x).toNat, by omega⟩ : Fin 16).val := rfl
  have hskip (policy : Config.KeyPolicy) (want : Bool) := skipOnKey_of_reg_eq policy want hj
  exact ⟨(hskip P.keyIdx true).trans (hskip Config.refuseKeys true).symm,
    (hskip P.keyIdx false).trans (hskip Config.refuseKeys false).symm⟩

/-- Settles O48, by what the selection reports. -/
theorem waitForKeyUnderEveryChoice : Obligations.WaitForKeyUnderEveryChoice := by
  intro P hheld hnone s x
  have hexec : execWith P (.ldVxK x) s = .next (waitKey P.keySel x s) := rfl
  cases hsel : P.keySel s.key with
  | none => exact .inl ⟨hnone s.key hsel, by rw [hexec, waitKey_of_none hsel]⟩
  | some j =>
    rw [waitKey_of_some hsel] at hexec
    refine .inr ⟨j, _, hheld s.key j hsel, hexec, ?_, onlyRegister_setReg_advance s x _⟩
    rw [reg_setReg_advance, BitVec.toNat_ofNat]
    omega

/-- Settles O39: RND is one register written beside the count of draws. -/
theorem randomByteIsMasked : Obligations.RandomByteIsMasked := by
  intro s x kk
  have hframe := onlyRegister_setReg_advance { s with draws := s.draws + 1 } x (Config.randByte s.draws &&& kk)
  exact ⟨_, rfl, rfl, reg_setReg_advance _ x _, hframe.2⟩

end Sys2Proof.Machine
end

section
/-! PROOF. Call and return together, and calls nested to the end of the stack (spec/95_test_vectors.md E7). -/

namespace Sys2Proof.Machine

/-- Settles O43: the return reads the slot the call wrote. -/
theorem callThenReturnComesBack : Obligations.CallThenReturnComesBack := by
  intro s nnn hlt
  refine ⟨_, _, exec_call_of_lt hlt nnn, exec_ret_of_pos (Nat.succ_pos _), ?_⟩
  simp only [Nat.add_sub_cancel, Vector.getElem_set_self]

/-- As many calls as there are free slots complete, and take one slot each. -/
theorem callAll_of_free_slots (targets : List Addr12) (s : State) (h : s.sp.val + targets.length ≤ 16) :
    ∃ t : State, callAll targets s = some t ∧ t.flt = s.flt ∧ t.sp.val = s.sp.val + targets.length := by
  induction targets generalizing s with
  | nil => exact ⟨s, rfl, rfl, rfl⟩
  | cons nnn rest ih =>
    rw [List.length_cons] at h
    have hcall := exec_call_of_lt (s := s) (by omega) nnn
    obtain ⟨t, hrest, hflt, hsp⟩ := ih { s with
      stack := s.stack.set s.sp.val (s.pc + 2), sp := ⟨s.sp.val + 1, by omega⟩, pc := target nnn }
      (show s.sp.val + 1 + rest.length ≤ 16 by omega)
    refine ⟨t, ?_, hflt, ?_⟩
    · rw [callAll, hcall]; exact hrest
    · rw [hsp, List.length_cons]
      show s.sp.val + 1 + rest.length = _
      omega

/-- Settles O44: sixteen calls use the sixteen slots, and the next finds the stack full. -/
theorem sixteenCallsThenOverflow : Obligations.SixteenCallsThenOverflow := by
  intro s targets nnn hrun hempty hlen
  obtain ⟨t, hcalls, hflt, hsp⟩ := callAll_of_free_slots targets s (by rw [hempty, hlen]; decide)
  have htrun : t.Running := by rw [State.Running, hflt]; exact hrun
  have hfull : t.sp = 16 := Fin.ext (by rw [hsp, hempty, hlen]; rfl)
  refine ⟨t, hcalls, htrun, hfull, ?_⟩
  rw [exec_call_of_full hfull, State.raise_of_running htrun]; rfl

end Sys2Proof.Machine
end

section
/-! PROOF. Memory as the host environment writes it, the boot sequence, and a block load after a BCD (R63, R262; R141,
R196). -/

namespace Sys2Proof.Machine

/-- A host call that changes memory loads a program or resets (R63, R201). -/
theorem applyHostCall_of_mem_ne {c : HostCall} {s t : State} (h : applyHostCall c s = .ok t) (hne : t.mem ≠ s.mem) :
    c = .reset ∨ ∃ bytes, c = .loadProgram bytes := by
  obtain ⟨bytes, hc, -, -⟩ | ⟨-, rfl⟩ | ⟨index, pressed, -, -, ht⟩ | ⟨hc, -⟩ := applyHostCall_cases h
  · exact .inr ⟨bytes, hc⟩
  · exact absurd rfl hne
  · exact absurd (congrArg State.mem ht) hne
  · exact .inl hc

theorem move_of_mem_ne {P : Params} {p q : Phase} {s t : State} (h : Move P p s q t) (hne : t.mem ≠ s.mem) :
    stepWith P s = .next t ∨ applyHostCall .reset s = .ok t ∨ (∃ bytes, applyHostCall (.loadProgram bytes) s = .ok t) ∨
    (p = .fresh ∧ ∃ image, t = placeFont image s) := by
  cases h with
  | step h => exact .inl h
  | call c h =>
    obtain rfl | ⟨bytes, rfl⟩ := applyHostCall_of_mem_ne h hne
    · exact .inr (.inl h)
    · exact .inr (.inr (.inl ⟨bytes, h⟩))
  | placeFont image => exact .inr (.inr (.inr ⟨rfl, image, rfl⟩))

/-- The 80 bytes of a font stand at addresses 0 to 79 (R262). -/
theorem placeFont_read_inside (image : Vector Byte 80) {s : State} (hwf : s.mem.wf = true) {a : Nat} (ha : a < 80) :
    (placeFont image s).mem.read a = image[a] := by
  have hlen : a < image.toList.length := by simpa using ha
  have h := Memory.read_writeBytes_inside (base := Config.fontBase) hwf (by simp) hlen
  rw [Config.fontBase, Nat.zero_add] at h
  exact h.trans (Vector.getElem_toList hlen)

theorem placeFont_read_outside (image : Vector Byte 80) {s : State} (hwf : s.mem.wf = true) {a : Nat} (ha : 80 ≤ a) :
    (placeFont image s).mem.read a = s.mem.read a :=
  Memory.read_writeBytes_outside (base := Config.fontBase) hwf (by simp) (.inr (by simpa using ha))

/-- Settles O57, by the cases of a host call, the three kinds of move and the bytes of a font. -/
theorem hostWritesMemoryByLoadProgramAlone : Obligations.HostWritesMemoryByLoadProgramAlone :=
  ⟨fun _ _ _ => applyHostCall_of_mem_ne, fun _ _ _ _ _ => move_of_mem_ne, fun image _ hwf =>
    ⟨rfl, fun _ => placeFont_read_inside image hwf, fun _ => placeFont_read_outside image hwf⟩⟩

/-- Settles O55: booting without a font is loading the program into the reset state. -/
theorem bootStartsProgramFromReset : Obligations.BootStartsProgramFromReset := by
  intro bytes hlen
  obtain ⟨t, hload, ht, hinside, houtside⟩ := (loadProgramCopiesBytes State.reset bytes rfl).1 hlen
  have hrun : t.Running := by rw [ht]; rfl
  exact ⟨t, hload, ht, hrun, hinside, houtside⟩

/-- Settles O32: the load reads the three bytes the BCD stored. -/
theorem blockLoadAfterBcdGivesDigits : Obligations.BlockLoadAfterBcdGivesDigits := by
  intro s x hwf hin
  obtain ⟨t, hbcd, ht, hhundreds, htens, hones, -⟩ := (bcdStoresThreeDigits s x hwf).1 hin
  have hi : t.i = s.i := by rw [ht]
  obtain ⟨u, hload, -, hreg, -⟩ := (blockLoadCopiesMemory t 2).1 (by rw [hi]; exact hin)
  rw [hi] at hreg
  refine ⟨t, u, hbcd, hload, ?_, ?_, ?_⟩
  · rw [hreg 0 (by decide)]; exact hhundreds
  · rw [hreg 1 (by decide)]; exact htens
  · rw [hreg 2 (by decide)]; exact hones

/-! ### The decimal digits and the bus (R141 to R143) -/

/-- Three nibbles as one number. -/
theorem nibbles_toNat (h t o : BitVec 4) : (h ++ t ++ o).toNat = 256 * h.toNat + 16 * t.toNat + o.toNat := by
  rw [BitVec.toNat_append, BitVec.toNat_append, Nat.shiftLeft_eq, Nat.shiftLeft_eq, Nat.mul_comm h.toNat,
    ← Nat.two_pow_add_eq_or_of_lt t.isLt, Nat.mul_comm (2 ^ 4 * h.toNat + t.toNat),
    ← Nat.two_pow_add_eq_or_of_lt o.isLt]
  omega

/-- The bus as the three digits of a number (R143). -/
theorem bcd12_toNat (v : Byte) :
    (bcd12 v).toNat = 256 * (v.toNat / 100) + 16 * (v.toNat / 10 % 10) + v.toNat % 10 := by
  rw [bcd12, nibbles_toNat]
  simp only [BitVec.toNat_setWidth, hundreds_toNat, tens_toNat, ones_toNat]
  omega

/-- Settles O30, by the numbers the digits and the bus stand for. -/
theorem digitsAreTheDecimalDigits : Obligations.DigitsAreTheDecimalDigits := by
  intro v
  have hbus := bcd12_toNat v
  have hbyte := v.isLt
  rw [hundreds_toNat, tens_toNat, ones_toNat]
  refine ⟨by omega, by omega, by omega, by omega, fun h t o ht ho hsum => ?_, hbus, unpack_bcd12 v⟩
  omega

/-! ### The shift-and-add-3 circuit (R148) -/

theorem extractLsb'_nibbles (h t o : BitVec 4) :
    (h ++ t ++ o).extractLsb' 8 4 = h ∧ (h ++ t ++ o).extractLsb' 4 4 = t ∧ (h ++ t ++ o).extractLsb' 0 4 = o := by
  refine ⟨?_, ?_, BitVec.extractLsb'_append_eq_right⟩
  · rw [BitVec.extractLsb'_append_eq_of_le (by decide), BitVec.extractLsb'_append_eq_left]
  · rw [BitVec.extractLsb'_append_eq_of_le (by decide), BitVec.extractLsb'_append_eq_right]

theorem addThree_toNat {d : BitVec 4} (h : d.toNat ≤ 9) :
    (addThree d).toNat = if 5 ≤ d.toNat then d.toNat + 3 else d.toNat := by
  rw [addThree]
  split_ifs with h5
  · rw [BitVec.toNat_add]
    show (d.toNat + 3) % 16 = _
    omega
  · rfl

/-- A shift left by one that brings in a bit, as a number. -/
theorem shiftLeft_one_or_bit_toNat (x : BitVec 12) (b : Bool) :
    ((x <<< 1) ||| (BitVec.ofBool b).setWidth 12).toNat = 2 * (x.toNat % 2048) + b.toNat := by
  have hb : b.toNat < 2 ^ 1 := b.toNat_lt
  have hx : x.toNat <<< 1 % 2 ^ 12 = 2 ^ 1 * (x.toNat % 2048) := by rw [Nat.shiftLeft_eq]; omega
  rw [BitVec.toNat_or, BitVec.toNat_shiftLeft, hx, BitVec.toNat_setWidth_of_le (by decide), BitVec.toNat_ofBool,
    ← Nat.two_pow_add_eq_or_of_lt hb]

/-- The digits of a byte as the nibbles of its bus, which are below 10. -/
theorem digit_nibbles_toNat (v : Byte) :
    ((hundreds v).setWidth 4).toNat = v.toNat / 100 ∧ ((tens v).setWidth 4).toNat = v.toNat / 10 % 10 ∧
    ((ones v).setWidth 4).toNat = v.toNat % 10 := by
  simp only [BitVec.toNat_setWidth, hundreds_toNat, tens_toNat, ones_toNat]
  omega

/-- Twice a digit and the bit coming in, where a digit of 5 or more carries into the next because 3 was added to it. -/
theorem double_adjusted_digit {d c : Nat} (hd : d ≤ 9) (hc : c ≤ 1) :
    2 * (if 5 ≤ d then d + 3 else d) + c = 16 * ((2 * d + c) / 10) + (2 * d + c) % 10 := by
  split_ifs <;> omega

/-- The digits of twice a number and a bit: each digit doubled, with the carry from the digit below. -/
theorem digits_of_double {p q b : Nat} (hq : q = 2 * p + b) :
    q % 10 = (2 * (p % 10) + b) % 10 ∧
    q / 10 % 10 = (2 * (p / 10 % 10) + (2 * (p % 10) + b) / 10) % 10 ∧
    q / 100 = 2 * (p / 100) + (2 * (p / 10 % 10) + (2 * (p % 10) + b) / 10) / 10 := by
  have htens : q / 10 = 2 * (p / 10) + (2 * (p % 10) + b) / 10 := by omega
  omega

/-- A round of the circuit doubles a decimal number below 128 and adds the bit. -/
theorem dabbleRound_bcd12 {p q : Byte} {b : Bool} (hp : p.toNat < 128) (hq : q.toNat = 2 * p.toNat + b.toNat) :
    dabbleRound (bcd12 p) b = bcd12 q := by
  obtain ⟨hh, ht, ho⟩ := digit_nibbles_toNat p
  obtain ⟨hhigh, hmid, hlow⟩ :=
    extractLsb'_nibbles ((hundreds p).setWidth 4) ((tens p).setWidth 4) ((ones p).setWidth 4)
  have hb := b.toNat_lt
  apply BitVec.eq_of_toNat_eq
  rw [dabbleRound, bcd12, hhigh, hmid, hlow, shiftLeft_one_or_bit_toNat, nibbles_toNat, addThree_toNat (by omega),
    addThree_toNat (by omega), addThree_toNat (by omega), hh, ht, ho, bcd12_toNat, if_neg (by omega)]
  have hones := double_adjusted_digit (d := p.toNat % 10) (c := b.toNat) (by omega) (by omega)
  have htens := double_adjusted_digit (d := p.toNat / 10 % 10) (c := (2 * (p.toNat % 10) + b.toNat) / 10) (by omega)
    (by omega)
  obtain ⟨hq0, hq1, hq2⟩ := digits_of_double hq
  omega

/-- Bit `j` of a byte takes its bits above `j` to its bits from `j` on. -/
theorem dabbleRound_shifted (v : Byte) (j : Nat) :
    dabbleRound (bcd12 (v >>> (j + 1))) (v.getLsbD j) = bcd12 (v >>> j) := by
  have hpre : (v >>> (j + 1)).toNat = v.toNat / 2 ^ j / 2 := by
    rw [BitVec.toNat_ushiftRight, Nat.shiftRight_eq_div_pow, Nat.pow_succ, Nat.div_div_eq_div_mul]
  have hcur : (v >>> j).toNat = v.toNat / 2 ^ j := by rw [BitVec.toNat_ushiftRight, Nat.shiftRight_eq_div_pow]
  have hbit : (v.getLsbD j).toNat = v.toNat / 2 ^ j % 2 := by rw [BitVec.getLsbD, Nat.toNat_testBit]
  have hle : v.toNat / 2 ^ j ≤ v.toNat := Nat.div_le_self _ _
  exact dabbleRound_bcd12 (by rw [hpre]; omega) (by rw [hpre, hcur, hbit]; omega)

/-- Settles O31: after the round for bit `j` the accumulator is the bus of the bits from `j` on. -/
theorem doubleDabbleComputesBcd : Obligations.DoubleDabbleComputesBcd := by
  intro v
  have hround := dabbleRound_shifted v
  have hstart : (0 : BitVec 12) = bcd12 (v >>> 8) := by
    rw [BitVec.ushiftRight_eq_zero (Nat.le_refl 8)]; rfl
  rw [doubleDabble, hstart]
  simp only [List.foldl_cons, List.foldl_nil, hround 7, hround 6, hround 5, hround 4, hround 3, hround 2, hround 1,
    hround 0]
  rw [BitVec.ushiftRight_zero]

end Sys2Proof.Machine
end

section
/-! PROOF. The display family, second part: the closed form of DRW and what follows from it (spec/40_sprite_draw.md
R112 to R126). -/

namespace Sys2Proof.Machine

/-! ### Which cells a sprite lies over -/

/-- Row offsets below 32 land on different display rows (R122). -/
theorem rowOf_inj {y0 r r' : Nat} (h : r < 32) (h' : r' < 32) (e : rowOf y0 r = rowOf y0 r') : r = r' := by
  have := congrArg Fin.val e
  simp only [rowOf, Fin.ofNat] at this
  omega

/-- Settles O26, by the offsets of the columns and of the rows. -/
theorem spriteBitsLandApart : Obligations.SpriteBitsLandApart := fun _ _ _ _ _ _ hr hr' hc hc' hcol hrow =>
  ⟨rowOf_inj (by omega) (by omega) hrow, (columnOf_inj hc hc').1 hcol⟩

/-- A 1 of a sprite row lies over the column (R113). -/
def rowOver (x0 : Nat) (row : Byte) (px : Fin 64) : Bool :=
  [0, 1, 2, 3, 4, 5, 6, 7].any fun c => row.getLsbD (7 - c) && decide (px = columnOf x0 c)

/-- A 1 of the sprite rows, the first of them row `r` of the sprite, lies over the cell. -/
def rowsOver (x0 y0 : Nat) : Nat → List Byte → Fin 64 → Fin 32 → Bool
  | _, [], _, _ => false
  | r, row :: rows, px, py => (decide (py = rowOf y0 r) && rowOver x0 row px) || rowsOver x0 y0 (r + 1) rows px py

theorem rowOver_iff {x0 : Nat} {row : Byte} {px : Fin 64} :
    rowOver x0 row px = true ↔ ∃ c < 8, row.getLsbD (7 - c) = true ∧ px = columnOf x0 c := by
  rw [rowOver, List.any_eq_true]
  simp only [Bool.and_eq_true, decide_eq_true_eq]
  refine exists_congr fun c => and_congr_left fun _ => ?_
  simp only [List.mem_cons, List.not_mem_nil, or_false]
  omega

theorem rowsOver_iff {x0 y0 r : Nat} {rows : List Byte} {px : Fin 64} {py : Fin 32} :
    rowsOver x0 y0 r rows px py = true ↔
      ∃ k, ∃ h : k < rows.length, py = rowOf y0 (r + k) ∧ rowOver x0 rows[k] px = true := by
  induction rows generalizing r with
  | nil => simp [rowsOver]
  | cons row rows ih =>
    rw [rowsOver, Bool.or_eq_true, Bool.and_eq_true, decide_eq_true_eq, ih]
    constructor
    · rintro (⟨hpy, hrow⟩ | ⟨k, hk, hpy, hrow⟩)
      · exact ⟨0, Nat.succ_pos _, hpy, hrow⟩
      · exact ⟨k + 1, Nat.succ_lt_succ hk, by rw [hpy]; congr 1; omega, hrow⟩
    · rintro ⟨k, hk, hpy, hrow⟩
      cases k with
      | zero => exact .inl ⟨hpy, hrow⟩
      | succ k => exact .inr ⟨k, Nat.lt_of_succ_lt_succ hk, by rw [hpy]; congr 1; omega, hrow⟩

/-- The rows after row `r` do not lie over its display row: the sprite has at most 32 rows (R122). -/
theorem rowsOver_of_row_before {x0 y0 r : Nat} {rows : List Byte} (h : r + 1 + rows.length ≤ 32) (px : Fin 64) :
    rowsOver x0 y0 (r + 1) rows px (rowOf y0 r) = false := by
  rw [← Bool.not_eq_true, rowsOver_iff]
  rintro ⟨k, hk, hrow, -⟩
  have := rowOf_inj (by omega) (by omega) hrow
  omega

theorem drawRow_cell_eq (x0 y0 r : Nat) (row : Byte) (acc : Blit) (px : Fin 64) (py : Fin 32) :
    Display.cell (drawRow x0 y0 r row acc).fb px py =
      (Display.cell acc.fb px py ^^ (decide (py = rowOf y0 r) && rowOver x0 row px)) :=
  drawRow_cell x0 y0 r row acc px py

theorem drawRow_coll_iff (x0 y0 r : Nat) (row : Byte) (acc : Blit) :
    (drawRow x0 y0 r row acc).coll = true ↔
      acc.coll = true ∨ ∃ px, Display.cell acc.fb px (rowOf y0 r) = true ∧ rowOver x0 row px = true := by
  simp only [drawRow_coll, Bool.or_eq_true, rowOver, List.any_eq_true, Bool.and_eq_true, decide_eq_true_eq]
  refine or_congr_right ⟨?_, ?_⟩
  · rintro ⟨c, hc, hbit, hcell⟩
    exact ⟨_, hcell, c, hc, hbit, rfl⟩
  · rintro ⟨_, hcell, c, hc, hbit, rfl⟩
    exact ⟨c, hc, hbit, hcell⟩

/-- Every cell after the sprite rows: its old value exclusive-or the sprite (R120). -/
theorem drawRows_cell {x0 y0 r : Nat} {rows : List Byte} (h : r + rows.length ≤ 32) (acc : Blit) (px : Fin 64)
    (py : Fin 32) :
    Display.cell (drawRows x0 y0 r rows acc).fb px py =
      (Display.cell acc.fb px py ^^ rowsOver x0 y0 r rows px py) := by
  induction rows generalizing r acc with
  | nil => simp [rowsOver]
  | cons row rows ih =>
    rw [List.length_cons] at h
    rw [drawRows_cons, ih (by omega), drawRow_cell_eq, rowsOver, Bool.xor_assoc]
    congr 1
    by_cases hpy : py = rowOf y0 r
    · subst hpy
      rw [rowsOver_of_row_before (by omega)]
      simp
    · simp [hpy]

/-- The collision value after them: a sprite bit over a cell that was on (R115). -/
theorem drawRows_coll_iff {x0 y0 r : Nat} {rows : List Byte} (h : r + rows.length ≤ 32) (acc : Blit) :
    (drawRows x0 y0 r rows acc).coll = true ↔
      acc.coll = true ∨ ∃ px py, Display.cell acc.fb px py = true ∧ rowsOver x0 y0 r rows px py = true := by
  induction rows generalizing r acc with
  | nil => simp [rowsOver]
  | cons row rows ih =>
    rw [List.length_cons] at h
    have hlater (px : Fin 64) (py : Fin 32) :
        (Display.cell (drawRow x0 y0 r row acc).fb px py = true ∧ rowsOver x0 y0 (r + 1) rows px py = true) ↔
        (Display.cell acc.fb px py = true ∧ rowsOver x0 y0 (r + 1) rows px py = true) := by
      refine and_congr_left fun hover => ?_
      have hpy : py ≠ rowOf y0 r := by
        rintro rfl
        rw [rowsOver_of_row_before (by omega)] at hover
        cases hover
      simp [drawRow_cell_eq, hpy]
    rw [drawRows_cons, ih (by omega), drawRow_coll_iff, or_assoc]
    simp only [hlater, rowsOver, Bool.or_eq_true, Bool.and_eq_true, decide_eq_true_eq, and_or_left, exists_or]
    refine or_congr_right (or_congr_left ?_)
    constructor
    · rintro ⟨px, hcell, hover⟩
      exact ⟨px, _, hcell, rfl, hover⟩
    · rintro ⟨px, _, hcell, rfl, hover⟩
      exact ⟨px, hcell, hover⟩

/-! ### The sprite of a DRW -/

/-- A 1 of the sprite that `DRW Vx, Vy, n` draws from a state lies over the cell. -/
def spriteOver (s : State) (x y : RegIx) (n : Fin 16) (px : Fin 64) (py : Fin 32) : Bool :=
  rowsOver (s.originColumn x) (s.originRow y) 0 (s.mem.readBytes s.i.toNat n.val) px py

/-- By row and column offset. -/
theorem spriteOver_iff_offsets {s : State} {x y : RegIx} {n : Fin 16} {px : Fin 64} {py : Fin 32} :
    spriteOver s x y n px py = true ↔ ∃ k < n.val, ∃ c < 8,
      (s.mem.read (s.i.toNat + k)).getLsbD (7 - c) = true ∧
        px = columnOf (s.originColumn x) c ∧ py = rowOf (s.originRow y) k := by
  rw [spriteOver, rowsOver_iff]
  simp only [rowOver_iff, Memory.readBytes_length, Memory.readBytes_getElem, Nat.zero_add, exists_prop]
  refine exists_congr fun k => and_congr_right fun _ => ?_
  constructor
  · rintro ⟨hpy, c, hc, hbit, hpx⟩
    exact ⟨c, hc, hbit, hpx, hpy⟩
  · rintro ⟨c, hc, hbit, hpx, hpy⟩
    exact ⟨hpy, c, hc, hbit, hpx⟩

/-- A column offset below 8 is the one the closed form computes. -/
theorem eq_columnOf_iff {x0 c : Nat} (h0 : x0 < 64) (hc : c < 64) (px : Fin 64) :
    px = columnOf x0 c ↔ (px.val + 64 - x0) % 64 = c := by
  rw [Fin.ext_iff, columnOf, Fin.ofNat]
  simp only
  omega

theorem eq_rowOf_iff {y0 k : Nat} (h0 : y0 < 32) (hk : k < 32) (py : Fin 32) :
    py = rowOf y0 k ↔ (py.val + 32 - y0) % 32 = k := by
  rw [Fin.ext_iff, rowOf, Fin.ofNat]
  simp only
  omega

/-- This is `S(px, py)` of the closed form (R120). -/
theorem spriteOver_iff_spriteBit {s : State} {x y : RegIx} {n : Fin 16} {px : Fin 64} {py : Fin 32} :
    spriteOver s x y n px py = true ↔ SpriteBit s x y n px py := by
  have hcol : s.originColumn x < 64 := Nat.mod_lt _ (by decide)
  have hrow : s.originRow y < 32 := Nat.mod_lt _ (by decide)
  rw [spriteOver_iff_offsets]
  constructor
  · rintro ⟨k, hk, c, hc, hbit, hpx, hpy⟩
    rw [eq_columnOf_iff hcol (by omega)] at hpx
    rw [eq_rowOf_iff hrow (by omega)] at hpy
    subst hpx hpy
    exact ⟨hk, hc, hbit⟩
  · rintro ⟨hk, hc, hbit⟩
    exact ⟨_, hk, _, hc, hbit, (eq_columnOf_iff hcol (by omega) px).2 rfl, (eq_rowOf_iff hrow (by omega) py).2 rfl⟩

/-! ### The closed form (R120) -/

/-- The next state of a DRW whose sprite lies in memory: the cells, VF and the frame. -/
theorem exec_drw_closed_form {s : State} {n : Fin 16} (h : SpriteInMemory s n) (x y : RegIx) :
    ∃ (t : State) (coll : Bool), exec (.drw x y n) s = .next t ∧ Footprint (.drw x y n) s t ∧
      (∀ px py, Display.cell t.fb px py = (Display.cell s.fb px py ^^ spriteOver s x y n px py)) ∧
      t.reg 15 = flagByte coll ∧
      (coll = true ↔ ∃ px py, Display.cell s.fb px py = true ∧ spriteOver s x y n px py = true) := by
  have hlen : 0 + (s.mem.readBytes s.i.toNat n.val).length ≤ 32 := by rw [Memory.readBytes_length]; omega
  rw [exec, execDrw, drwCommand_of_fits ((spriteInMemory_iff_fits s n).1 h)]
  refine ⟨_, _, rfl, ⟨_, _, rfl⟩, drawRows_cell hlen _, State.reg_setReg_same _ vf _, ?_⟩
  rw [drawRows_coll_iff hlen]
  exact or_iff_right Bool.false_ne_true

theorem flagByte_of_iff {coll : Bool} {p : Prop} (h : coll = true ↔ p) :
    (p → flagByte coll = 1) ∧ (¬ p → flagByte coll = 0) := by
  refine ⟨fun hp => by rw [h.2 hp]; rfl, fun hp => ?_⟩
  rw [Bool.eq_false_of_not_eq_true fun hc => hp (h.1 hc)]
  rfl

/-- Settles O21, by the closed form over the sprite's cells. -/
theorem drawMatchesClosedForm : Obligations.DrawMatchesClosedForm := by
  intro s x y n h
  obtain ⟨t, coll, hexec, hfoot, hcell, hvf, hcoll⟩ := exec_drw_closed_form h x y
  simp only [spriteOver_iff_spriteBit] at hcoll
  obtain ⟨hone, hzero⟩ := flagByte_of_iff hcoll
  refine ⟨t, hexec, ?_, fun j => hfoot.reg_of_drw, fun px py => ?_, fun hp => by rw [hvf, hone hp],
    fun hp => by rw [hvf, hzero hp]⟩
  · obtain ⟨_, _, rfl⟩ := hfoot
    rfl
  · rw [hcell, ← spriteOver_iff_spriteBit]
    cases Display.cell s.fb px py <;> cases spriteOver s x y n px py <;> decide

/-- The same sprite at the same place lies over the same cells. -/
theorem spriteOver_congr {s s' : State} {x y x' y' : RegIx} {n : Fin 16}
    (hx : (s'.reg x').toNat % 64 = (s.reg x).toNat % 64) (hy : (s'.reg y').toNat % 32 = (s.reg y).toNat % 32)
    (hmem : ∀ r : Nat, r < n.val → s'.mem.read (s'.i.toNat + r) = s.mem.read (s.i.toNat + r)) (px : Fin 64)
    (py : Fin 32) : spriteOver s' x' y' n px py = spriteOver s x y n px py := by
  have hbytes : s'.mem.readBytes s'.i.toNat n.val = s.mem.readBytes s.i.toNat n.val := by
    refine List.ext_getElem (by simp) fun r hr _ => ?_
    rw [Memory.readBytes_getElem, Memory.readBytes_getElem, hmem r (by simpa using hr)]
  have hcol : s'.originColumn x' = s.originColumn x := hx
  have hrow : s'.originRow y' = s.originRow y := hy
  rw [spriteOver, spriteOver, hbytes, hcol, hrow]

/-- Settles O24: exclusive-or with the same sprite twice is nothing. -/
theorem drawTwiceRestores : Obligations.DrawTwiceRestores := by
  intro s t s2 x y x2 y2 n h h2 hexec hfb hx hy hmem
  obtain ⟨t', _, hexec', -, hcell, -, -⟩ := exec_drw_closed_form h x y
  obtain rfl : t = t' := Host.Outcome.next.inj (hexec.symm.trans hexec')
  obtain ⟨u, coll, hexec2, -, hcell2, hvf, hcoll⟩ := exec_drw_closed_form h2 x2 y2
  have hsame := spriteOver_congr hx hy hmem
  have hover (px : Fin 64) (py : Fin 32) :
      (Display.cell s2.fb px py = true ∧ spriteOver s2 x2 y2 n px py = true) ↔
      (Display.cell s.fb px py = false ∧ SpriteBit s x y n px py) := by
    rw [hfb, hcell, hsame, ← spriteOver_iff_spriteBit]
    refine and_congr_left fun hbit => ?_
    rw [hbit, Bool.xor_true, Bool.not_eq_true']
  simp only [hover] at hcoll
  obtain ⟨hone, hzero⟩ := flagByte_of_iff hcoll
  refine ⟨u, hexec2, Display.ext_cells fun px py => ?_, fun hp => by rw [hvf, hone hp], fun hp => by rw [hvf, hzero hp]⟩
  rw [hcell2, hfb, hcell, hsame, Bool.xor_assoc, Bool.xor_self, Bool.xor_false]

/-- Settles O28: the display was clear, so the sprite is all it shows and nothing collides. -/
theorem clearThenDrawShowsSpriteAlone : Obligations.ClearThenDrawShowsSpriteAlone := by
  intro s x y n h
  obtain ⟨u, coll, hexec, -, hcell, hvf, hcoll⟩ :=
    exec_drw_closed_form (s := { s with fb := Display.clear, pc := s.pc + 2 }) h x y
  refine ⟨_, u, exec_cls s, hexec, ?_, fun px py => ?_⟩
  · rw [hvf, (flagByte_of_iff hcoll).2]
    rintro ⟨px, py, hon, -⟩
    rw [Display.cell_clear] at hon
    cases hon
  · rw [hcell, Display.cell_clear, Bool.false_xor]
    exact spriteOver_iff_spriteBit

/-- The cell that bit `7 - c` of sprite row `r` lands on (R112). -/
def spriteCell (x0 y0 : Nat) {n : Nat} (q : Fin n × Fin 8) : Fin 64 × Fin 32 :=
  (columnOf x0 q.2.val, rowOf y0 q.1.val)

theorem spriteCell_injective (x0 y0 : Nat) {n : Nat} (hn : n < 16) :
    Function.Injective (spriteCell x0 y0 (n := n)) := by
  rintro ⟨r, c⟩ ⟨r', c'⟩ h
  obtain ⟨hcol, hrow⟩ := Prod.ext_iff.1 h
  obtain ⟨hr, hc⟩ := spriteBitsLandApart x0 y0 r r' c c' (by omega) (by omega) c.isLt c'.isLt hcol hrow
  exact Prod.ext (Fin.ext hr) (Fin.ext hc)

/-- Settles O25: the changed cells are the sprite's, and different bits of it land on different cells. -/
theorem drawChangesOneCellPerSpriteBit : Obligations.DrawChangesOneCellPerSpriteBit := by
  intro s t x y n h hexec
  obtain ⟨t', _, hexec', -, hcell, -, -⟩ := exec_drw_closed_form h x y
  obtain rfl : t = t' := Host.Outcome.next.inj (hexec.symm.trans hexec')
  rw [← Finset.card_image_of_injective _ (spriteCell_injective (s.originColumn x) (s.originRow y) n.isLt)]
  refine congrArg Finset.card (Finset.ext fun ⟨px, py⟩ => ?_)
  have hchanged : Display.cell t.fb px py ≠ Display.cell s.fb px py ↔ spriteOver s x y n px py = true := by
    rw [hcell]
    cases Display.cell s.fb px py <;> simp
  simp only [Finset.mem_filter, Finset.mem_univ, true_and, Finset.mem_image, hchanged, spriteOver_iff_offsets]
  constructor
  · rintro ⟨k, hk, c, hc, hbit, rfl, rfl⟩
    exact ⟨(⟨k, hk⟩, ⟨c, hc⟩), hbit, rfl⟩
  · rintro ⟨⟨k, c⟩, hbit, hq⟩
    obtain ⟨rfl, rfl⟩ := Prod.ext_iff.1 hq
    exact ⟨k, k.isLt, c, c.isLt, hbit, rfl, rfl⟩

end Sys2Proof.Machine
end
